-- ==== Sys2Proof/Word.lean ====
section
/-! DEFINITION. The machine word (spec/00_scope.md R7, R9, R10). -/

namespace Sys2Proof

/-- `XLEN` = `ILEN` = `PC_WIDTH` = `ADDR_WIDTH` = 16 (R7): registers, instruction words, the program
counter and data addresses are all one 16-bit word.  `+` and `-` are taken modulo 2^16 and
`Word.toInt` is the two's complement reading (R10). -/
abbrev Word := BitVec 16

end Sys2Proof
end

