-- ==== Sys2Proof/Syntax.lean ====
section
/-! DEFINITION. Registers, branch conditions and instructions: one constructor of `Instr` per row of
spec/opcode_table.json, in the table's order. -/

namespace Sys2Proof

/-- The eight addressable registers, "identified by letters A through H" (R20).  A to E are general
purpose (R22); F is the status register, G the RAM stack pointer, H the RAM base pointer (R23). -/
inductive Reg where
  | a | b | c | d | e | f | g | h
deriving DecidableEq, Repr

/-- The nine conditions of Table 5, in the order of their codes 0 to 8 (R164). -/
inductive Cond where
  | always | equal | notEqual | greater | greaterEqual | less | lessEqual | signed | notSigned
deriving DecidableEq, Repr

/-- An instruction as its decoded fields: `rd` bits 10:8, `ra` bits 7:5, `rb` bits 4:2, `simm5` bits
4:0, `imm8` and `cc` bits 7:0 (R72, R73, R74).  A field marked "X" is no operand (R83).
`je` to `jns` are JMP's assembler aliases, selected by the opcode and bits 7:0 (R80, R87). -/
inductive Instr where
  | nop
  | lw (rd ra : Reg) (simm5 : BitVec 5)
  | sw (rd ra : Reg) (simm5 : BitVec 5)
  | mov (rd ra : Reg)
  | movi (rd : Reg) (imm8 : BitVec 8)
  | add (rd ra : Reg)
  | addi (rd : Reg) (imm8 : BitVec 8)
  | sub (rd ra : Reg)
  | subi (rd : Reg) (imm8 : BitVec 8)
  | jmp (rd : Reg) (cc : BitVec 8)
  | cmp (rd ra rb : Reg)
  | halt
  | lwl (rd ra : Reg) (simm5 : BitVec 5)
  | swl (rd ra : Reg) (simm5 : BitVec 5)
  | je (rd : Reg)
  | jne (rd : Reg)
  | jg (rd : Reg)
  | jge (rd : Reg)
  | jl (rd : Reg)
  | jle (rd : Reg)
  | js (rd : Reg)
  | jns (rd : Reg)
deriving DecidableEq, Repr

end Sys2Proof
end

