-- ==== Sys2Proof/WellFormed.lean ====
section
/-! DEFINITION. Which terms of `Instr` an instruction word stands for. -/

namespace Sys2Proof

/-- The one check.  A JMP word with condition code 1 to 8 is written `je` to `jns` (R80, R87), so `jmp`
itself carries code 0 or a code 9 to 255 that Table 5 does not define (R85).  Every other field
takes every value (R76 to R78). -/
def Instr.wellFormed : Instr → Bool
  | .jmp _ cc => cc.toNat = 0 || 8 < cc.toNat
  | .nop | .lw _ _ _ | .sw _ _ _ | .mov _ _ | .movi _ _ | .add _ _ | .addi _ _ | .sub _ _ | .subi _ _
  | .cmp _ _ _ | .halt | .lwl _ _ _ | .swl _ _ _ | .je _ | .jne _ | .jg _ | .jge _ | .jl _ | .jle _
  | .js _ | .jns _ => true

end Sys2Proof
end

