-- ==== Sys2Proof/Decode.lean ====
section
/-! DEFINITION. The decoder (total on every word, rejecting by name) and, after it, the encoder, both
from the opcode map of spec/30_encoding.md (R72 to R84); then the opcode table's rows. -/

namespace Sys2Proof

/-- The register a 3-bit field names: A = 0, ..., H = 7 (R21; the spec's decision D1). -/
def Reg.ofNumber (n : BitVec 3) : Reg :=
  match n.toNat with
  | 0 => .a
  | 1 => .b
  | 2 => .c
  | 3 => .d
  | 4 => .e
  | 5 => .f
  | 6 => .g
  | _ => .h

/-- The number of each register letter (R21). -/
def Reg.number : Reg → BitVec 3
  | .a => 0
  | .b => 1
  | .c => 2
  | .d => 3
  | .e => 4
  | .f => 5
  | .g => 6
  | .h => 7

/-- Bits 15:11, the opcode in every format (R71). -/
def opcodeField (w : Word) : BitVec 5 := w.extractLsb' 11 5

/-- Bits 10:8 (R72, R73, R74). -/
def rdField (w : Word) : Reg := Reg.ofNumber (w.extractLsb' 8 3)

/-- Bits 7:5 (R72, R74). -/
def raField (w : Word) : Reg := Reg.ofNumber (w.extractLsb' 5 3)

/-- Bits 4:2 (R74). -/
def rbField (w : Word) : Reg := Reg.ofNumber (w.extractLsb' 2 3)

/-- Bits 4:0 (R72, R77). -/
def simm5Field (w : Word) : BitVec 5 := w.extractLsb' 0 5

/-- Bits 7:0 (R73). -/
def imm8Field (w : Word) : BitVec 8 := w.extractLsb' 0 8

/-- Why a word is no instruction. -/
inductive DecodeError where
  /-- One of the eighteen opcodes that "appear nowhere in the document" (R84). -/
  | unassignedOpcode (op : BitVec 5)
deriving DecidableEq, Repr

/-- Opcode 01100 with condition code `cc`: an alias for 1 to 8, JMP itself otherwise (R80, R87). -/
def decodeJump (rd : Reg) (cc : BitVec 8) : Instr :=
  match cc.toNat with
  | 1 => .je rd
  | 2 => .jne rd
  | 3 => .jg rd
  | 4 => .jge rd
  | 5 => .jl rd
  | 6 => .jle rd
  | 7 => .js rd
  | 8 => .jns rd
  | _ => .jmp rd cc

/-- The opcode map (R80), bit 15 set selecting HALT, LW.L and SW.L (R81; the spec's decision D8). -/
def decode (w : Word) : Except DecodeError Instr :=
  match (opcodeField w).toNat with
  | 0b00000 => .ok .nop
  | 0b00001 => .ok (.lw (rdField w) (raField w) (simm5Field w))
  | 0b00010 => .ok (.sw (rdField w) (raField w) (simm5Field w))
  | 0b00011 => .ok (.mov (rdField w) (raField w))
  | 0b00100 => .ok (.movi (rdField w) (imm8Field w))
  | 0b01000 => .ok (.add (rdField w) (raField w))
  | 0b01001 => .ok (.addi (rdField w) (imm8Field w))
  | 0b01010 => .ok (.sub (rdField w) (raField w))
  | 0b01011 => .ok (.subi (rdField w) (imm8Field w))
  | 0b01100 => .ok (decodeJump (rdField w) (imm8Field w))
  | 0b01101 => .ok (.cmp (rdField w) (raField w) (rbField w))
  | 0b10000 => .ok .halt
  | 0b10001 => .ok (.lwl (rdField w) (raField w) (simm5Field w))
  | 0b10010 => .ok (.swl (rdField w) (raField w) (simm5Field w))
  | _ => .error (.unassignedOpcode (opcodeField w))

/-- Type 1 (R72): opcode, Rd, Ra, Simm5. -/
def type1 (op : BitVec 5) (rd ra : Reg) (simm5 : BitVec 5) : Word :=
  op ++ rd.number ++ ra.number ++ simm5

/-- Type 2 (R73): opcode, Rd, Imm8. -/
def type2 (op : BitVec 5) (rd : Reg) (imm8 : BitVec 8) : Word :=
  op ++ rd.number ++ imm8

/-- Type 3 (R74): opcode, Rd, Ra, Rb, two unused bits. -/
def type3 (op : BitVec 5) (rd ra rb : Reg) : Word :=
  op ++ rd.number ++ ra.number ++ rb.number ++ 0#2

/-- NOP and HALT (R75): the opcode alone. -/
def opcodeOnly (op : BitVec 5) : Word := op ++ 0#11

/-- The opcode of each instruction, bits 15:11 of its word (R70, R80). -/
def Instr.opcode : Instr → BitVec 5
  | .nop => 0b00000
  | .lw _ _ _ => 0b00001
  | .sw _ _ _ => 0b00010
  | .mov _ _ => 0b00011
  | .movi _ _ => 0b00100
  | .add _ _ => 0b01000
  | .addi _ _ => 0b01001
  | .sub _ _ => 0b01010
  | .subi _ _ => 0b01011
  | .jmp _ _ | .je _ | .jne _ | .jg _ | .jge _ | .jl _ | .jle _ | .js _ | .jns _ => 0b01100
  | .cmp _ _ _ => 0b01101
  | .halt => 0b10000
  | .lwl _ _ _ => 0b10001
  | .swl _ _ _ => 0b10010

/-- The word of an instruction, 0 in every ignored bit (R83; the spec's decision D22). -/
def encode : Instr → Word
  | .nop => opcodeOnly 0b00000
  | .lw rd ra i => type1 0b00001 rd ra i
  | .sw rd ra i => type1 0b00010 rd ra i
  | .mov rd ra => type1 0b00011 rd ra 0
  | .movi rd i => type2 0b00100 rd i
  | .add rd ra => type1 0b01000 rd ra 0
  | .addi rd i => type2 0b01001 rd i
  | .sub rd ra => type1 0b01010 rd ra 0
  | .subi rd i => type2 0b01011 rd i
  | .jmp rd cc => type2 0b01100 rd cc
  | .cmp rd ra rb => type3 0b01101 rd ra rb
  | .halt => opcodeOnly 0b10000
  | .lwl rd ra i => type1 0b10001 rd ra i
  | .swl rd ra i => type1 0b10010 rd ra i
  | .je rd => type2 0b01100 rd 1
  | .jne rd => type2 0b01100 rd 2
  | .jg rd => type2 0b01100 rd 3
  | .jge rd => type2 0b01100 rd 4
  | .jl rd => type2 0b01100 rd 5
  | .jle rd => type2 0b01100 rd 6
  | .js rd => type2 0b01100 rd 7
  | .jns rd => type2 0b01100 rd 8

/-- The bits of the word that are decoded; the others are "X", ignored (R83, R74). -/
def Instr.significantBits : Instr → Word
  | .nop | .halt => 0xF800
  | .mov _ _ | .add _ _ | .sub _ _ => 0xFFE0
  | .cmp _ _ _ => 0xFFFC
  | .lw _ _ _ | .sw _ _ _ | .lwl _ _ _ | .swl _ _ _ | .movi _ _ | .addi _ _ | .subi _ _ | .jmp _ _
  | .je _ | .jne _ | .jg _ | .jge _ | .jl _ | .jle _ | .js _ | .jns _ => 0xFFFF

/-- The instruction's name in spec/opcode_table.json. -/
def Instr.mnemonic : Instr → String
  | .nop => "NOP"
  | .lw _ _ _ => "LW"
  | .sw _ _ _ => "SW"
  | .mov _ _ => "MOV"
  | .movi _ _ => "MOVI"
  | .add _ _ => "ADD"
  | .addi _ _ => "ADDI"
  | .sub _ _ => "SUB"
  | .subi _ _ => "SUBI"
  | .jmp _ _ => "JMP"
  | .cmp _ _ _ => "CMP"
  | .halt => "HALT"
  | .lwl _ _ _ => "LW.L"
  | .swl _ _ _ => "SW.L"
  | .je _ => "JE"
  | .jne _ => "JNE"
  | .jg _ => "JG"
  | .jge _ => "JGE"
  | .jl _ => "JL"
  | .jle _ => "JLE"
  | .js _ => "JS"
  | .jns _ => "JNS"

/-- A row of the opcode table: its name, its mask and its match. -/
structure OpcodeRow where
  mnemonic : String
  mask : Word
  pattern : Word
deriving DecidableEq, Repr

/-- The rows of the fourteen instructions (spec/opcode_table.json, from R80's map). -/
def instructionRows : List OpcodeRow :=
  [⟨"NOP", 0xF800, 0x0000⟩, ⟨"LW", 0xF800, 0x0800⟩, ⟨"SW", 0xF800, 0x1000⟩, ⟨"MOV", 0xF800, 0x1800⟩,
   ⟨"MOVI", 0xF800, 0x2000⟩, ⟨"ADD", 0xF800, 0x4000⟩, ⟨"ADDI", 0xF800, 0x4800⟩] ++
  [⟨"SUB", 0xF800, 0x5000⟩, ⟨"SUBI", 0xF800, 0x5800⟩, ⟨"JMP", 0xF800, 0x6000⟩, ⟨"CMP", 0xF800, 0x6800⟩,
   ⟨"HALT", 0xF800, 0x8000⟩, ⟨"LW.L", 0xF800, 0x8800⟩, ⟨"SW.L", 0xF800, 0x9000⟩]

/-- The rows of JMP's eight assembler aliases (R87). -/
def aliasRows : List OpcodeRow :=
  [⟨"JE", 0xF8FF, 0x6001⟩, ⟨"JNE", 0xF8FF, 0x6002⟩, ⟨"JG", 0xF8FF, 0x6003⟩, ⟨"JGE", 0xF8FF, 0x6004⟩,
   ⟨"JL", 0xF8FF, 0x6005⟩, ⟨"JLE", 0xF8FF, 0x6006⟩, ⟨"JS", 0xF8FF, 0x6007⟩, ⟨"JNS", 0xF8FF, 0x6008⟩]

/-- The names the table gives an instruction: its own, and for an alias also JMP's, whose row its word
matches too (R87: "each expands to JMP with the given condition code"). -/
def Instr.tableNames (i : Instr) : List String :=
  if i.opcode = 0b01100#5 then [i.mnemonic, "JMP"] else [i.mnemonic]

/-- The instruction the decoder reads from an opcode-table word `w` of `nbits` bits.  Every instruction
is one 16-bit word (R71), moved whole (R58), so there is no byte order to apply. -/
def decodeTableWord (nbits w : Nat) : Option Instr :=
  match decode (BitVec.ofNat 16 (w % 2 ^ nbits)) with
  | .ok i => some i
  | .error _ => none

end Sys2Proof
end

