-- ==== Sys2Proof/Config.lean ====
section
/-! DEFINITION. What an implementation or a launch fixes (spec/00_scope.md R7), and the free values. -/

namespace Sys2Proof.Config

/-- `RESET_PC` (R7, R33; the spec's decision D6). -/
def resetPc : Word := 0x0000#16

/-- The OPEN parameters of R7 that are numbers: "the model takes it as an argument".  They are data of
the launch (R201), so they stand in `State` and every statement about all states holds for every
value of them (log entry 3).  `UNIFIED_MEMORY` is `Machine.Code`, beside the image it places. -/
structure Params where
  /-- `RAM_WORDS`, the number of implemented data words (R51, D4). -/
  ramWords : Nat
  /-- `SR_ZF_BIT` (R26, D9). -/
  zfBit : Fin 16
  /-- `SR_SF_BIT` (R26, D9). -/
  sfBit : Fin 16
  /-- `SR_OF_BIT` (R26, D9). -/
  ofBit : Fin 16
deriving DecidableEq, Repr

/-- The range R7 gives the parameters: `1 <= RAM_WORDS <= 65536`, three distinct flag positions. -/
abbrev Params.wf (p : Params) : Prop :=
  (1 ≤ p.ramWords ∧ p.ramWords ≤ 65536) ∧
    p.zfBit ≠ p.sfBit ∧ p.zfBit ≠ p.ofBit ∧ p.sfBit ≠ p.ofBit

/-- DESIGN CHOICE (log entry 3): the parameters `State.reset` carries.  The flag positions are the
reference instantiation of R26; 65536 words is what spec/95_test_vectors.md takes "unless stated".
No statement over all states rests on them. -/
def reference : Params := { ramWords := 65536, zfBit := 0, sfBit := 1, ofBit := 2 }

/-- DESIGN CHOICE (log entry 1): the word register number `n` holds after reset.  R33: "unspecified:
any word; ... never as 0", so it has no body and nothing can be proved of its value. -/
opaque resetRegister : Nat → Word

/-- DESIGN CHOICE (log entry 2): the word data cell `a` holds when neither the launch nor a store has
written it.  R52: "unspecified (any word ...)", so it has no body and nothing can be proved of its
value. -/
opaque initialCell : Nat → Word

end Sys2Proof.Config
end

