-- ==== Sys2Proof/Machine/State.lean ====
section
/-! DEFINITION. The state of the machine as plain data, the reasons a step stops, and the state after
reset (spec/10_state.md, spec/20_memory.md section 1, spec/60_exceptions.md R181). -/

namespace Sys2Proof.Machine

/-- The register file: eight 16-bit registers, no bank, no hard-wired register (R20, R22, R23). -/
structure Regs where
  a : Word
  b : Word
  c : Word
  d : Word
  e : Word
  /-- Register F, the status register: the flags are bits of this word, no state of their own (R27). -/
  f : Word
  /-- Register G, the "RAM Stack pointer": a name, no implicit use (R29). -/
  g : Word
  /-- Register H, the "RAM Base pointer": a name, no implicit use (R29). -/
  h : Word
deriving DecidableEq, Repr

/-- Data memory (R50): the cells that the launch or a store has written, as (word address, word) pairs
with strictly rising addresses.  One address names one 16-bit word and there is no byte address, so
the cell is the word (log entry 4). -/
abbrev Memory := List (Nat × Word)

/-- Instruction memory and `UNIFIED_MEMORY` in one (R55 to R57): where the program image, the words at
instruction addresses `RESET_PC .. RESET_PC + len - 1`, is held. -/
inductive InstrMemory where
  /-- `UNIFIED_MEMORY` true: the image occupies `len` data words from `RESET_PC` (R56). -/
  | shared (len : Nat)
  /-- `UNIFIED_MEMORY` false: a read-only array of its own (R56). -/
  | separate (image : List Word)
  /-- `UNIFIED_MEMORY` not fixed: a data access inside the image faults (R57). -/
  | unfixed (image : List Word)
deriving DecidableEq, Repr

/-- The model's five faults (R181), each with its recorded info.  All are stops on cases the document
leaves without meaning, so all are safe ("All of these err toward unprovable"). -/
inductive Fault where
  /-- Raised by the step when the fetched word's opcode is unassigned (R84).  Safe. -/
  | illegalInstruction (w pc : Word)
  /-- Raised by JMP when its condition code is 9 to 255 (R85).  Safe. -/
  | reservedCondition (w pc : Word)
  /-- Raised by LW, LW.L, SW, SW.L when the address is not below `RAM_WORDS` (R52, R53).  Safe. -/
  | dataAddress (addr pc : Word)
  /-- Raised by the fetch when `pc` is outside the program image (R55).  Safe. -/
  | fetchAddress (addr : Word)
  /-- Raised by LW, LW.L, SW, SW.L inside the image when `UNIFIED_MEMORY` is not fixed (R57).  Safe. -/
  | codeRegionAccess (addr pc : Word)
deriving DecidableEq, Repr

/-- Reasons the model has no meaning to give. -/
inductive Refusal where
  /-- For an arm of `exec` whose instruction has no meaning yet; no arm raises it now.  Safe. -/
  | notModelled (mnemonic : String)
deriving DecidableEq, Repr

/-- The whole state (spec/10_state.md, opening paragraph and R30), with the launch's parameters (R201). -/
structure State where
  /-- Registers A to H (R20). -/
  regs : Regs
  /-- The program counter, an instruction address (R28). -/
  pc : Word
  /-- Data memory (R50). -/
  ram : Memory
  /-- Instruction memory (R55). -/
  code : InstrMemory
  /-- The machine has executed HALT (R30, R101). -/
  halted : Bool
  /-- The fault that has been raised, if any (R30). -/
  fault : Option Fault
  /-- The launch's parameters (R7, R201); no instruction changes them. -/
  params : Config.Params
deriving DecidableEq, Repr

/-- The registers after reset (R33: "unspecified"; log entry 1). -/
def Regs.reset : Regs where
  a := Config.resetRegister 0
  b := Config.resetRegister 1
  c := Config.resetRegister 2
  d := Config.resetRegister 3
  e := Config.resetRegister 4
  f := Config.resetRegister 5
  g := Config.resetRegister 6
  h := Config.resetRegister 7

/-- The state right after reset (R33, R200), before a launch has placed an image: nothing is listed in
memory and the image is empty (log entry 5). -/
def State.reset : State where
  regs := Regs.reset
  pc := Config.resetPc
  ram := []
  code := .shared 0
  halted := false
  fault := none
  params := Config.reference

end Sys2Proof.Machine
end

