-- ==== Sys2Proof/Machine/Ops.lean ====
section
/-! DEFINITION. The named operations over registers, the program counter and memory, fetching, raising
a fault, and the launch (the primitives of spec/00_scope.md R12). -/

namespace Sys2Proof.Machine

/-- What a meaning or a step answers. -/
abbrev Result := Host.Outcome State Fault Refusal

/-- `x[r]` (R12): any register may be read, and holds the last word written to it (R24). -/
def readReg (r : Reg) (s : State) : Word :=
  match r with
  | .a => s.regs.a
  | .b => s.regs.b
  | .c => s.regs.c
  | .d => s.regs.d
  | .e => s.regs.e
  | .f => s.regs.f
  | .g => s.regs.g
  | .h => s.regs.h

/-- The register file with `v` in register `r`; no register is hard-wired (R22). -/
def Regs.set (r : Reg) (v : Word) (x : Regs) : Regs :=
  match r with
  | .a => { x with a := v }
  | .b => { x with b := v }
  | .c => { x with c := v }
  | .d => { x with d := v }
  | .e => { x with e := v }
  | .f => { x with f := v }
  | .g => { x with g := v }
  | .h => { x with h := v }

/-- `x[r] <- v` (R12). -/
def writeReg (r : Reg) (v : Word) (s : State) : State := { s with regs := s.regs.set r v }

/-- `pc <- target` (R12). -/
def setPc (target : Word) (s : State) : State := { s with pc := target }

/-- `pc <- pc + 1`, modulo 2^16 (R28; the spec's decision D25). -/
def advancePc (s : State) : State := setPc (s.pc + 1) s

/-- The word written to cell `a`, if the launch or a store has written one. -/
def Memory.lookup : Memory → Nat → Option Word
  | [], _ => none
  | (k, v) :: m, a => if k = a then some v else Memory.lookup m a

/-- The memory with `v` in cell `a`, the addresses still strictly rising. -/
def Memory.write : Memory → Nat → Word → Memory
  | [], a, v => [(a, v)]
  | (k, w) :: m, a, v =>
    if a < k then (a, v) :: (k, w) :: m
    else if a = k then (a, v) :: m
    else (k, w) :: Memory.write m a v

/-- The canonical form: addresses strictly rising.  An unlisted cell has no value of the model's
(log entry 2), so no listed value equals it. -/
abbrev Memory.wf (m : Memory) : Prop := m.Pairwise fun x y => x.1 < y.1

/-- Every listed cell is below `n`. -/
abbrev Memory.below (m : Memory) (n : Nat) : Prop := ∀ c ∈ m, c.1 < n

/-- `RAM[addr]`: the last word written there, else the unspecified word the cell holds (R52). -/
def cell (addr : Word) (s : State) : Word :=
  (Memory.lookup s.ram addr.toNat).getD (Config.initialCell addr.toNat)

/-- `RAM[addr] <- v`: all 16 bits of the cell are replaced (R53). -/
def setCell (addr v : Word) (s : State) : State :=
  { s with ram := Memory.write s.ram addr.toNat v }

/-- `addr < RAM_WORDS` (R51).  The first disjunct is the full address space, where every 16-bit address
is implemented; `implemented_iff` says that the two together are `addr < RAM_WORDS`. -/
def implemented (p : Config.Params) (addr : Word) : Bool :=
  decide (65536 ≤ p.ramWords) || decide (addr.toNat < p.ramWords)

/-- `addr` lies in `RESET_PC .. RESET_PC + len - 1` (R55). -/
def inImage (len : Nat) (addr : Word) : Bool :=
  decide (Config.resetPc.toNat ≤ addr.toNat) && decide (addr.toNat < Config.resetPc.toNat + len)

/-- `addr` is closed to data accesses: `UNIFIED_MEMORY` is not fixed and the address is inside the image
(R57). -/
def closedToData (c : InstrMemory) (addr : Word) : Bool :=
  match c with
  | .shared _ | .separate _ => false
  | .unfixed image => inImage image.length addr

/-- The fault a data access to `addr` raises, if any, `Fault_DataAddress` first (R52, R53, R184). -/
def dataFault (addr : Word) (s : State) : Option Fault :=
  if implemented s.params addr then
    if closedToData s.code addr then some (.codeRegionAccess addr s.pc) else none
  else some (.dataAddress addr s.pc)

/-- `MemRead(addr, 1)` (R52).  It has no side effect. -/
def memRead (addr : Word) (s : State) : Except Fault Word :=
  match dataFault addr s with
  | some f => .error f
  | none => .ok (cell addr s)

/-- `MemWrite(addr, 1, v)` (R53). -/
def memWrite (addr v : Word) (s : State) : Except Fault State :=
  match dataFault addr s with
  | some f => .error f
  | none => .ok (setCell addr v s)

/-- The image word at instruction address `addr`, if the address is inside the image (R55). -/
def imageWord (image : List Word) (addr : Word) : Option Word :=
  if inImage image.length addr then image[addr.toNat - Config.resetPc.toNat]? else none

/-- `Fetch(addr)` (R55, R56): the cell of data memory at the time of the fetch when the two are one
memory, the image's word when they are not; outside the image, `Fault_FetchAddress`. -/
def fetch (addr : Word) (s : State) : Except Fault Word :=
  match s.code with
  | .shared len => if inImage len addr then .ok (cell addr s) else .error (.fetchAddress addr)
  | .separate image | .unfixed image =>
    match imageWord image addr with
    | some w => .ok w
    | none => .error (.fetchAddress addr)

/-- `raise` (R12): the machine stops with the named fault.  It saves nothing and vectors nowhere (R181,
R185), and nothing returns from it (R186). -/
def raise (f : Fault) : Result := .fault f

/-- The instruction at `pc` (R13): fetched, then decoded, an unassigned opcode being
`Fault_IllegalInstruction` with the word (R84). -/
def fetchInstr (s : State) : Except Fault Instr :=
  match fetch s.pc s with
  | .error f => .error f
  | .ok w =>
    match decode w with
    | .error _ => .error (.illegalInstruction w s.pc)
    | .ok i => .ok i

/-- DESIGN CHOICE (log entry 6): the answer of a step while the machine is halted, "no step; state
unchanged" (R30, R196). -/
def stayHalted (s : State) : Result := .next s

/-- The `fault` mark set, all else unchanged (R30, R185). -/
def recordFault (f : Fault) (s : State) : State := { s with fault := some f }

/-- The image with `w` at instruction address `addr`, padded with the all-zero word where it is too
short. -/
def placeWord (image : List Word) (addr w : Word) : List Word :=
  let n := addr.toNat - Config.resetPc.toNat
  (image ++ List.replicate (n + 1 - image.length) 0#16).set n w

/-- `s` with `w` at the address its next fetch reads, inside the image, and able to take a step. -/
def placeNext (w : Word) (s : State) : State :=
  let t := { s with halted := false, fault := none }
  match s.code with
  | .shared len =>
    { setCell s.pc w t with code := .shared (max len (s.pc.toNat + 1 - Config.resetPc.toNat)) }
  | .separate image => { t with code := .separate (placeWord image s.pc w) }
  | .unfixed image => { t with code := .unfixed (placeWord image s.pc w) }

/-- The memory after the writes of a list of (address, word) pairs, first to last. -/
def Memory.writeAll (m : Memory) : List (Word × Word) → Memory
  | [] => m
  | (a, v) :: rest => Memory.writeAll (Memory.write m a.toNat v) rest

/-- The image's words with their addresses, from `addr` upward (R55). -/
def imageCells (addr : Word) : List Word → List (Word × Word)
  | [] => []
  | w :: rest => (addr, w) :: imageCells (addr + 1) rest

/-- The launch (R201): reset, with the parameters, `UNIFIED_MEMORY` (or `none` where it is left
unfixed), the program image from `RESET_PC` upward and the initial data.  In a unified memory the
image is placed after the data. -/
def launch (p : Config.Params) (unified : Option Bool) (image : List Word)
    (data : List (Word × Word)) : State :=
  let ram := Memory.writeAll [] data
  match unified with
  | some true =>
    { State.reset with
      params := p, code := .shared image.length
      ram := Memory.writeAll ram (imageCells Config.resetPc image) }
  | some false => { State.reset with params := p, code := .separate image, ram := ram }
  | none => { State.reset with params := p, code := .unfixed image, ram := ram }

end Sys2Proof.Machine
end

