-- ==== Sys2Proof/Machine/Operands.lean ====
section
/-! DEFINITION. The operand forms: the two immediates and the one addressing mode. -/

namespace Sys2Proof.Machine

/-- The value of Simm5: `sext_16` of bits 4:0, -16 to +15, not scaled (R11, R77). -/
def simm5Value (i : BitVec 5) : Word := i.signExtend 16

/-- The value of Imm8 in MOVI, ADDI, SUBI: `zext_16` of bits 7:0, 0 to 255 (R78; the spec's decision
D7). -/
def imm8Value (i : BitVec 8) : Word := i.setWidth 16

/-- The low byte of a word as a word, `v & 0xFF` (R112, R114). -/
def lowByte (v : Word) : Word := v &&& 0x00FF#16

/-- The one addressing mode, `(x[Ra] + sext_16(Simm5)) mod 2^16`; `Ra` is not modified (R61, R110). -/
def effectiveAddress (ra : Reg) (i : BitVec 5) (s : State) : Word := readReg ra s + simm5Value i

end Sys2Proof.Machine
end

