-- ==== Sys2Proof/Machine/Flags.lean ====
section
/-! DEFINITION. The status word, the flags a comparison computes, and the branch conditions
(spec/10_state.md R26, spec/44_compare_jump.md R161, R164). -/

namespace Sys2Proof.Machine

/-- The word with bit `n` equal to `b` and every other bit 0. -/
def bitAt (n : Fin 16) (b : Bool) : Word := if b then 1#16 <<< n.val else 0#16

/-- `mkflags(z, s, o)` (R26; the other thirteen bits are 0 by the spec's decision D10). -/
def mkFlags (p : Config.Params) (z s o : Bool) : Word :=
  bitAt p.zfBit z ||| bitAt p.sfBit s ||| bitAt p.ofBit o

/-- `ZF(w)` (R26). -/
def zeroFlag (p : Config.Params) (w : Word) : Bool := w.getLsbD p.zfBit.val

/-- `SF(w)` (R26). -/
def signFlag (p : Config.Params) (w : Word) : Bool := w.getLsbD p.sfBit.val

/-- `OF(w)` (R26). -/
def overflowFlag (p : Config.Params) (w : Word) : Bool := w.getLsbD p.ofBit.val

/-- ZF of the comparison of `a` with `b`: the difference is zero (R161). -/
def compareZero (a b : Word) : Bool := a - b == 0#16

/-- SF of the comparison: bit 15 of the difference (R161). -/
def compareSign (a b : Word) : Bool := (a - b).getLsbD 15

/-- OF of the comparison: `a[15] != b[15]` and `r[15] != a[15]` (R161). -/
def compareOverflow (a b : Word) : Bool :=
  a.getLsbD 15 != b.getLsbD 15 && (a - b).getLsbD 15 != a.getLsbD 15

/-- The status word CMP writes (R162). -/
def compareFlags (p : Config.Params) (a b : Word) : Word :=
  mkFlags p (compareZero a b) (compareSign a b) (compareOverflow a b)

/-- The condition a code selects: 0 to 8 by Table 5 (R164), none for 9 to 255 (R85). -/
def condOfCode (cc : BitVec 8) : Option Cond :=
  match cc.toNat with
  | 0 => some .always
  | 1 => some .equal
  | 2 => some .notEqual
  | 3 => some .greater
  | 4 => some .greaterEqual
  | 5 => some .less
  | 6 => some .lessEqual
  | 7 => some .signed
  | 8 => some .notSigned
  | _ => none

/-- `cond(cc, ZF, SF, OF)` (R164). -/
def condHolds (c : Cond) (z s o : Bool) : Bool :=
  match c with
  | .always => true
  | .equal => z
  | .notEqual => !z
  | .greater => !z && s == o
  | .greaterEqual => s == o
  | .less => s != o
  | .lessEqual => z || s != o
  | .signed => s
  | .notSigned => !s

/-- Whether a jump on condition `c` is taken: the flags are those of register F (R27, R163). -/
def taken (c : Cond) (s : State) : Bool :=
  condHolds c (zeroFlag s.params (readReg .f s)) (signFlag s.params (readReg .f s))
    (overflowFlag s.params (readReg .f s))

end Sys2Proof.Machine
end

