-- ==== Sys2Proof/Machine/Move.lean ====
section
/-! DEFINITION. MOV (assembly MOVR) and MOVI (spec/42_move.md). -/

namespace Sys2Proof.Machine

/-- The shape of every instruction that writes Rd and moves on: `x[Rd] <- v`, `pc <- pc + 1`. -/
def setAndAdvance (rd : Reg) (v : Word) (s : State) : Result := .next (advancePc (writeReg rd v s))

/-- MOV (R131): `x[Rd] <- x[Ra]`. -/
def execMov (rd ra : Reg) (s : State) : Result := setAndAdvance rd (readReg ra s) s

/-- MOVI (R132): `x[Rd] <- zext_16(Imm8)`. -/
def execMovi (rd : Reg) (i : BitVec 8) (s : State) : Result := setAndAdvance rd (imm8Value i) s

end Sys2Proof.Machine
end

