-- ==== Sys2Proof/Machine/Arithmetic.lean ====
section
/-! DEFINITION. ADD, ADDI, SUB, SUBI (spec/43_arithmetic.md): modulo 2^16, no flag, no exception (R140). -/

namespace Sys2Proof.Machine

/-- ADD (R141): `x[Rd] <- x[Rd] + x[Ra]`. -/
def execAdd (rd ra : Reg) (s : State) : Result :=
  setAndAdvance rd (readReg rd s + readReg ra s) s

/-- ADDI (R142): `x[Rd] <- x[Rd] + zext_16(Imm8)`. -/
def execAddi (rd : Reg) (i : BitVec 8) (s : State) : Result :=
  setAndAdvance rd (readReg rd s + imm8Value i) s

/-- SUB (R143): `x[Rd] <- x[Rd] - x[Ra]`. -/
def execSub (rd ra : Reg) (s : State) : Result :=
  setAndAdvance rd (readReg rd s - readReg ra s) s

/-- SUBI (R144): `x[Rd] <- x[Rd] - zext_16(Imm8)`. -/
def execSubi (rd : Reg) (i : BitVec 8) (s : State) : Result :=
  setAndAdvance rd (readReg rd s - imm8Value i) s

end Sys2Proof.Machine
end

