-- ==== Sys2Proof/Machine/CompareJump.lean ====
section
/-! DEFINITION. CMP, JMP and JMP's condition aliases (spec/44_compare_jump.md). -/

namespace Sys2Proof.Machine

/-- CMP (R162): the status word of `x[Ra] - x[Rb]` to Rd, and to no other register (R160). -/
def execCmp (rd ra rb : Reg) (s : State) : Result :=
  setAndAdvance rd (compareFlags s.params (readReg ra s) (readReg rb s)) s

/-- A jump on condition `c` to the whole 16-bit value of Rd; not taken, `pc + 1` (R163). -/
def jumpOn (c : Cond) (rd : Reg) (s : State) : Result :=
  .next (setPc (if taken c s then readReg rd s else s.pc + 1) s)

/-- JMP (R163): code 0 to 8 selects a condition, 9 to 255 raise `Fault_ReservedCondition` with the
instruction word.  No bit of a JMP word is ignored (R73), so encoding it again gives the word fetched. -/
def execJmp (rd : Reg) (cc : BitVec 8) (s : State) : Result :=
  match condOfCode cc with
  | some c => jumpOn c rd s
  | none => raise (.reservedCondition (encode (.jmp rd cc)) s.pc)

/-- JE, "Jump Equal", code 1 (R164). -/
def execJe (rd : Reg) (s : State) : Result := jumpOn .equal rd s

/-- JNE, "Jump Not Equal", code 2 (R164). -/
def execJne (rd : Reg) (s : State) : Result := jumpOn .notEqual rd s

/-- JG, "Jump Greater Than", code 3 (R164). -/
def execJg (rd : Reg) (s : State) : Result := jumpOn .greater rd s

/-- JGE, "Jump Greater Than or Equal", code 4 (R164). -/
def execJge (rd : Reg) (s : State) : Result := jumpOn .greaterEqual rd s

/-- JL, "Jump Less Than", code 5 (R164). -/
def execJl (rd : Reg) (s : State) : Result := jumpOn .less rd s

/-- JLE, "Jump Less Than or Equal", code 6 (R164). -/
def execJle (rd : Reg) (s : State) : Result := jumpOn .lessEqual rd s

/-- JS, "Jump Signed", code 7 (R164). -/
def execJs (rd : Reg) (s : State) : Result := jumpOn .signed rd s

/-- JNS, "Jump Not Signed", code 8 (R164). -/
def execJns (rd : Reg) (s : State) : Result := jumpOn .notSigned rd s

end Sys2Proof.Machine
end

