-- ==== Sys2Proof/Machine/LoadStore.lean ====
section
/-! DEFINITION. LW, LW.L, SW, SW.L (spec/41_load_store.md). -/

namespace Sys2Proof.Machine

/-- A load: the word at the effective address, through `narrow`, to Rd.  The address uses the old value
of the register where Rd = Ra; a fault changes nothing (R111). -/
def loadVia (narrow : Word → Word) (rd ra : Reg) (i : BitVec 5) (s : State) : Result :=
  match memRead (effectiveAddress ra i s) s with
  | .error f => raise f
  | .ok v => .next (advancePc (writeReg rd (narrow v) s))

/-- A store: the value of register Rd (a source), through `narrow`, to the whole cell at the effective
address; a fault changes nothing (R113). -/
def storeVia (narrow : Word → Word) (rd ra : Reg) (i : BitVec 5) (s : State) : Result :=
  match memWrite (effectiveAddress ra i s) (narrow (readReg rd s)) s with
  | .error f => raise f
  | .ok t => .next (advancePc t)

/-- LW (R111). -/
def execLw (rd ra : Reg) (i : BitVec 5) (s : State) : Result := loadVia id rd ra i s

/-- LW.L (R112): the low byte, zero-extended. -/
def execLwL (rd ra : Reg) (i : BitVec 5) (s : State) : Result := loadVia lowByte rd ra i s

/-- SW (R113). -/
def execSw (rd ra : Reg) (i : BitVec 5) (s : State) : Result := storeVia id rd ra i s

/-- SW.L (R114): the cell's bits 15:8 become 0. -/
def execSwL (rd ra : Reg) (i : BitVec 5) (s : State) : Result := storeVia lowByte rd ra i s

end Sys2Proof.Machine
end

