-- ==== Sys2Proof/Machine/NopHalt.lean ====
section
/-! DEFINITION. NOP and HALT (spec/40_nop_halt.md). -/

namespace Sys2Proof.Machine

/-- NOP (R100): `pc <- pc + 1`. -/
def execNop (s : State) : Result := .next (advancePc s)

/-- HALT (R101): `halted <- true`; `pc` keeps the address of the HALT word. -/
def execHalt (s : State) : Result := .next { s with halted := true }

end Sys2Proof.Machine
end

