-- ==== Sys2Proof/Machine/Step.lean ====
section
/-! DEFINITION. One step of the machine (spec/00_scope.md R13) and the state it leaves behind. -/

namespace Sys2Proof.Machine

/-- R13: fetch at `pc`, decode, execute.  While a fault is recorded the machine stays stopped with that
fault, and while it is halted nothing changes (R30; log entries 6 and 7). -/
def step (s : State) : Host.Outcome State Fault Refusal :=
  match s.fault with
  | some f => raise f
  | none =>
    if s.halted then stayHalted s
    else
      match fetchInstr s with
      | .error f => raise f
      | .ok i => exec i s

/-- The state after one step with R30's `fault` mark kept in it: a fault records itself and changes
nothing else (R185). -/
def advance (s : State) : State :=
  match step s with
  | .next t => t
  | .fault f => recordFault f s
  | .refused _ => s

/-- `s` with the instruction word `w` of `nbits` bits where the next step fetches (log entry 5). -/
def State.withFetchWord (s : State) (nbits w : Nat) : State :=
  placeNext (BitVec.ofNat 16 (w % 2 ^ nbits)) s

end Sys2Proof.Machine
end

