-- ==== Sys2Proof/Safety.lean ====
section
/-! DEFINITION. The terms the statements use: a machine that can step, the invariant, an allowed data
access, and what an instruction changes and leaves. -/

namespace Sys2Proof.Machine

/-- R13: "When `halted` is false and no fault has been raised". -/
abbrev running (s : State) : Prop := s.halted = false ∧ s.fault = none

/-- The image lies inside the addresses it is held at: data words when the two are one memory (R56),
else the 65536 instruction addresses (R28, R55). -/
def imageFits (ramWords : Nat) (c : InstrMemory) : Bool :=
  match c with
  | .shared len => decide (Config.resetPc.toNat + len ≤ ramWords)
  | .separate image | .unfixed image => decide (Config.resetPc.toNat + image.length ≤ 65536)

/-- What the launch sets up and every step keeps: the parameters in their range (R7), memory in its
canonical form and inside `RAM_WORDS` (R51), the image inside its memory (R55, R56). -/
abbrev invariant (s : State) : Prop :=
  s.params.wf ∧ s.ram.wf ∧ s.ram.below s.params.ramWords ∧
    imageFits s.params.ramWords s.code = true

/-- The number of words in the program image (R55). -/
def imageLength : InstrMemory → Nat
  | .shared len => len
  | .separate image | .unfixed image => image.length

/-- `addr` lies in `RESET_PC .. RESET_PC + len - 1` (R55). -/
abbrev inside (len : Nat) (addr : Word) : Prop :=
  Config.resetPc.toNat ≤ addr.toNat ∧ addr.toNat < Config.resetPc.toNat + len

/-- A data access to `addr` raises nothing: it is below `RAM_WORDS` (R51), and not inside the image of a
machine whose `UNIFIED_MEMORY` is not fixed (R57). -/
def accessAllowed (addr : Word) (s : State) : Prop :=
  addr.toNat < s.params.ramWords ∧ ∀ image, s.code = .unfixed image → ¬ inside image.length addr

/-- `addr` is `x[Ra]` plus the signed displacement, modulo 2^16, as numbers (R61, R110). -/
abbrev addressIs (addr : Word) (ra : Reg) (d : BitVec 5) (s : State) : Prop :=
  (addr.toNat : Int) = (((readReg ra s).toNat : Int) + d.toInt) % 65536

/-- Every cell of data memory reads as before. -/
def sameMemory (s t : State) : Prop := ∀ a : Word, cell a t = cell a s

/-- Every register reads as before. -/
def sameRegs (s t : State) : Prop := ∀ r, readReg r t = readReg r s

/-- The marks, the program image and the parameters are as before. -/
def sameRest (s t : State) : Prop :=
  t.halted = s.halted ∧ t.fault = s.fault ∧ t.code = s.code ∧ t.params = s.params

/-- `pc <- pc + 1`, modulo 2^16, as numbers. -/
def pcPlusOne (s t : State) : Prop := t.pc.toNat = (s.pc.toNat + 1) % 65536

/-- `t` is `s` with the number `n` in register `rd` and the next `pc`: no other register, cell or mark
differs. -/
def writesOnly (rd : Reg) (n : Nat) (s t : State) : Prop :=
  (readReg rd t).toNat = n ∧ (∀ r, r ≠ rd → readReg r t = readReg r s) ∧
    sameMemory s t ∧ pcPlusOne s t ∧ sameRest s t

/-- `t` is `s` with the number `n` in cell `addr` and the next `pc`: no other cell, no register and no
mark differs. -/
def storesOnly (addr : Word) (n : Nat) (s t : State) : Prop :=
  (cell addr t).toNat = n ∧ (∀ a : Word, a ≠ addr → cell a t = cell a s) ∧
    sameRegs s t ∧ pcPlusOne s t ∧ sameRest s t

/-- `t` is `s` after a jump on the condition `b`: the whole value of `rd` in `pc` if it holds, else the
next `pc`; nothing else differs. -/
def jumpsIf (b : Prop) (rd : Reg) (s t : State) : Prop :=
  (b → t.pc = readReg rd s) ∧ (¬ b → pcPlusOne s t) ∧
    sameRegs s t ∧ sameMemory s t ∧ sameRest s t

/-- The flags in register F (R26, R27). -/
def flagZ (s : State) : Bool := (readReg .f s).getLsbD s.params.zfBit.val

/-- As `flagZ`, for SF. -/
def flagS (s : State) : Bool := (readReg .f s).getLsbD s.params.sfBit.val

/-- As `flagZ`, for OF. -/
def flagO (s : State) : Bool := (readReg .f s).getLsbD s.params.ofBit.val

/-- Bits 15:11 of the word as a number (R71). -/
abbrev opcodeIs (w : Word) (n : Nat) : Prop := w.toNat / 2048 = n

/-- `r` is the register bits 10:8 name. -/
abbrev rdIs (w : Word) (r : Reg) : Prop := r.number.toNat = w.toNat / 256 % 8

/-- `r` is the register bits 7:5 name. -/
abbrev raIs (w : Word) (r : Reg) : Prop := r.number.toNat = w.toNat / 32 % 8

/-- `r` is the register bits 4:2 name. -/
abbrev rbIs (w : Word) (r : Reg) : Prop := r.number.toNat = w.toNat / 4 % 8

/-- The eighteen opcodes R84 lists. -/
def unassignedOpcodes : List Nat :=
  [0b00101, 0b00110, 0b00111, 0b01110, 0b01111] ++
  [0b10011, 0b10100, 0b10101, 0b10110, 0b10111, 0b11000, 0b11001, 0b11010, 0b11011, 0b11100,
    0b11101, 0b11110, 0b11111]

/-- The register an instruction writes (R27): its Rd, but for SW, SW.L (a source) and JMP (a target). -/
def destination : Instr → Option Reg
  | .lw rd _ _ | .lwl rd _ _ | .mov rd _ | .movi rd _ | .add rd _ | .addi rd _ | .sub rd _
  | .subi rd _ | .cmp rd _ _ => some rd
  | .nop | .halt | .sw _ _ _ | .swl _ _ _ | .jmp _ _ | .je _ | .jne _ | .jg _ | .jge _ | .jl _
  | .jle _ | .js _ | .jns _ => none

/-- The registers an instruction names, and F for a jump on a condition (R24, R163: "only JMP reads F
implicitly"). -/
def touched : Instr → List Reg
  | .nop | .halt => []
  | .lw rd ra _ | .lwl rd ra _ | .sw rd ra _ | .swl rd ra _ | .mov rd ra | .add rd ra
  | .sub rd ra => [rd, ra]
  | .movi rd _ | .addi rd _ | .subi rd _ => [rd]
  | .cmp rd ra rb => [rd, ra, rb]
  | .jmp rd cc => if cc = 0#8 then [rd] else [rd, .f]
  | .je rd | .jne rd | .jg rd | .jge rd | .jl rd | .jle rd | .js rd | .jns rd => [rd, .f]

/-- The instruction is JMP or one of its aliases. -/
def isJump : Instr → Bool
  | .jmp _ _ | .je _ | .jne _ | .jg _ | .jge _ | .jl _ | .jle _ | .js _ | .jns _ => true
  | .nop | .halt | .lw _ _ _ | .lwl _ _ _ | .sw _ _ _ | .swl _ _ _ | .mov _ _ | .movi _ _ | .add _ _
  | .addi _ _ | .sub _ _ | .subi _ _ | .cmp _ _ _ => false

/-- The address a memory instruction accesses (R61). -/
def accessAddress (i : Instr) (s : State) : Option Word :=
  match i with
  | .lw _ ra d | .lwl _ ra d | .sw _ ra d | .swl _ ra d => some (effectiveAddress ra d s)
  | .nop | .halt | .mov _ _ | .movi _ _ | .add _ _ | .addi _ _ | .sub _ _ | .subi _ _ | .cmp _ _ _
  | .jmp _ _ | .je _ | .jne _ | .jg _ | .jge _ | .jl _ | .jle _ | .js _ | .jns _ => none

/-- The address an instruction stores to: SW and SW.L alone store (R60). -/
def storeAddress (i : Instr) (s : State) : Option Word :=
  match i with
  | .sw _ ra d | .swl _ ra d => some (effectiveAddress ra d s)
  | .nop | .halt | .lw _ _ _ | .lwl _ _ _ | .mov _ _ | .movi _ _ | .add _ _ | .addi _ _ | .sub _ _
  | .subi _ _ | .cmp _ _ _ | .jmp _ _ | .je _ | .jne _ | .jg _ | .jge _ | .jl _ | .jle _ | .js _
  | .jns _ => none

/-- `g` applied to the next state; a fault or a refusal stays as it is. -/
def mapNext (g : State → State) (r : Result) : Result :=
  match r with
  | .next t => .next (g t)
  | .fault f => .fault f
  | .refused x => .refused x

end Sys2Proof.Machine
end

