-- ==== Sys2Proof/Certificates/Slice0/Obligations.lean ====
section
/-! DEFINITION. The statements for the provers.  Each holds for every value of the launch's parameters
and none rests on a free value (`Config.resetRegister`, `Config.initialCell`). -/

open Sys2Proof Sys2Proof.Machine

/-! ### Reset and launch -/

/-- R33's table of reset values, the spec's decisions D6, D12 and D17 (spec/92_eei_decisions.md):
`pc` is `RESET_PC` = 0x0000, `halted` false, `fault` absent. The empty memory and image are the
model's (log entry 5) and are not part of the statement. -/
def Obligations.ResetLeavesPcZeroAndNoMark : Prop :=
  State.reset.pc = 0x0000#16 ∧ State.reset.halted = false ∧ State.reset.fault = none

/-- The invariant holds after reset (R7's ranges, with the parameters of log entry 3). -/
def Obligations.ResetMeetsInvariant : Prop := invariant State.reset

/-- R201, R51, R56: a launch whose image and data lie inside their memories gives a state that meets
the invariant, whichever of the three treatments of `UNIFIED_MEMORY` it takes. -/
def Obligations.LaunchMeetsInvariant : Prop :=
  ∀ (p : Config.Params) (unified : Option Bool) (image : List Word) (data : List (Word × Word)),
    p.wf → Config.resetPc.toNat + image.length ≤ 65536 →
    (unified = some true → Config.resetPc.toNat + image.length ≤ p.ramWords) →
    (∀ c ∈ data, c.1.toNat < p.ramWords) →
    invariant (launch p unified image data)

/-- R55, R56, R200: a launched machine is able to step, stands at `RESET_PC`, fetches the image's
words at `RESET_PC` upward, and faults on a fetch anywhere else. Two cases of a unified memory are
the model's own choice and no rule of the spec: that the image wins over initial data that overlaps
it (log entry 15), and that an image longer than `RAM_WORDS` is still fetched (log entry 14). -/
def Obligations.LaunchedImageIsFetched : Prop :=
  ∀ (p : Config.Params) (unified : Option Bool) (image : List Word) (data : List (Word × Word)),
    Config.resetPc.toNat + image.length ≤ 65536 →
    running (launch p unified image data) ∧ (launch p unified image data).pc = Config.resetPc ∧
    (∀ (k : Nat) (w : Word), image[k]? = some w →
      fetch (Config.resetPc + BitVec.ofNat 16 k) (launch p unified image data) = .ok w) ∧
    (∀ a : Word, ¬ inside image.length a →
      fetch a (launch p unified image data) = .error (.fetchAddress a))

/-- R52, R201: a data word the launch supplies (once) is what its cell reads, outside a unified
memory's image. -/
def Obligations.LaunchedDataIsRead : Prop :=
  ∀ (p : Config.Params) (unified : Option Bool) (image : List Word) (data : List (Word × Word))
    (a v : Word),
    Config.resetPc.toNat + image.length ≤ 65536 →
    (data.map Prod.fst).Nodup → (a, v) ∈ data →
    ¬ (unified = some true ∧ inside image.length a) →
    cell a (launch p unified image data) = v

/-! ### Decoding and encoding -/

/-- Decoding the encoding of a well-formed instruction gives it back, at every value of every
operand. -/
def Obligations.DecodeOfEncodeIsTheInstruction : Prop :=
  ∀ i : Instr, i.wellFormed = true → decode (encode i) = .ok i

/-- R83, R74, R75: the decoder gives well-formed instructions, and a word agrees with the encoding of
what it decodes to on every bit but those marked "X", which the encoding leaves 0. -/
def Obligations.DecodedWordDiffersOnlyInIgnoredBits : Prop :=
  ∀ (w : Word) (i : Instr), decode w = .ok i →
    i.wellFormed = true ∧ encode i = w &&& i.significantBits

/-- R83: words that agree on the bits an instruction decodes are the same instruction. -/
def Obligations.IgnoredBitsHaveNoEffect : Prop :=
  ∀ (v w : Word) (i : Instr), decode w = .ok i →
    v &&& i.significantBits = w &&& i.significantBits → decode v = .ok i

/-- The opcode table: a word matches a row exactly when it decodes to an instruction of that name (an
alias's word matches JMP's row too, R87). -/
def Obligations.DecoderAgreesWithOpcodeTable : Prop :=
  ∀ row ∈ instructionRows ++ aliasRows, ∀ w : Word,
    (w &&& row.mask = row.pattern ↔ ∃ i, decode w = .ok i ∧ row.mnemonic ∈ i.tableNames)

/-- R84 (the spec's decision D16): no word is an instruction exactly when its opcode is one of the
eighteen unassigned ones, and a step that fetches such a word raises `Fault_IllegalInstruction`. -/
def Obligations.UnassignedOpcodesAreIllegal : Prop :=
  (∀ w : Word, (∃ e, decode w = .error e) ↔ w.toNat / 2048 ∈ unassignedOpcodes) ∧
  (∀ (s : State) (w : Word), running s → fetch s.pc s = .ok w →
    w.toNat / 2048 ∈ unassignedOpcodes → step s = .fault (.illegalInstruction w s.pc))

/-- Words written out bit by bit from the formats decode to the instructions they stand for. -/
def Obligations.WrittenOutWordsDecode : Prop :=
  decode 0b00000_00000000000#16 = .ok .nop ∧
  decode 0b00001_000_001_00100#16 = .ok (.lw .a .b 4) ∧
  decode 0b10010_100_011_11111#16 = .ok (.swl .e .d 31) ∧
  decode 0b00011_100_101_00000#16 = .ok (.mov .e .f) ∧
  decode 0b01001_010_10000000#16 = .ok (.addi .c 128) ∧
  decode 0b01101_101_000_001_00#16 = .ok (.cmp .f .a .b) ∧
  decode 0b01100_011_00000010#16 = .ok (.jne .d) ∧
  decode 0b10000_11111111111#16 = .ok .halt

/-! ### The step -/

/-- R13: a step of a machine that is neither halted nor stopped by a fault fetches at `pc`, decodes,
and executes what it decoded; nothing is added around it. -/
def Obligations.StepRunsTheDecodedInstruction : Prop :=
  ∀ (s : State) (w : Word) (i : Instr), running s → fetch s.pc s = .ok w → decode w = .ok i →
    step s = exec i s

/-- R55, R56: inside the image the fetch is the cell of data memory where the two are one memory, else
the image's word; outside it the step raises `Fault_FetchAddress` (the spec's decision D5).  That an
address of a unified image is fetched even where it is not below `RAM_WORDS` is the model's own
choice (log entry 14). -/
def Obligations.FetchReadsTheImageOnly : Prop :=
  (∀ (s : State) (a : Word) (len : Nat), s.code = .shared len → inside len a →
    fetch a s = .ok (cell a s)) ∧
  (∀ (s : State) (k : Nat) (w : Word) (image : List Word),
    (s.code = .separate image ∨ s.code = .unfixed image) →
    Config.resetPc.toNat + image.length ≤ 65536 → image[k]? = some w →
    fetch (Config.resetPc + BitVec.ofNat 16 k) s = .ok w) ∧
  (∀ s : State, running s → ¬ inside (imageLength s.code) s.pc →
    step s = .fault (.fetchAddress s.pc))

/-- From every state that meets the invariant, not only those a run reaches, a step gives a state that
meets it. -/
def Obligations.StepKeepsInvariant : Prop :=
  ∀ s t : State, invariant s → step s = .next t → invariant t

/-- R101, R196 ("nothing leaves it and all state survives unchanged", the spec's decision D17; that
the step answers the same state and not a stop is the model's choice, log entry 6): a halted machine
stays as it is for any number of steps. -/
def Obligations.HaltedMachineNeverChanges : Prop :=
  ∀ (s : State) (k : Nat), s.halted = true → s.fault = none →
    Host.Core.run core k s = .next s ∧ advance s = s

/-- R30, R181, R185 (the spec's decisions D12, D20): a fault records itself and changes no register,
cell or `pc`, and the machine takes no further step. -/
def Obligations.FaultsArePreciseAndFinal : Prop :=
  ∀ (s : State) (f : Fault), step s = .fault f →
    sameRegs s (advance s) ∧ sameMemory s (advance s) ∧ (advance s).pc = s.pc ∧
    (advance s).halted = s.halted ∧ (advance s).code = s.code ∧
    (advance s).params = s.params ∧ (advance s).fault = some f ∧
    step (advance s) = .fault f ∧ advance (advance s) = advance s

/-! ### NOP and HALT -/

/-- R100: NOP is every word whose top five bits are zero; it advances `pc` and changes nothing else.
-/
def Obligations.NopOnlyAdvancesPc : Prop :=
  (∀ w : Word, opcodeIs w 0b00000 → decode w = .ok .nop) ∧
  (∀ s : State, ∃ t, exec .nop s = .next t ∧
    pcPlusOne s t ∧ sameRegs s t ∧ sameMemory s t ∧ sameRest s t)

/-- HALT (spec/40_nop_halt.md; the spec's decisions D8 and D17): every word with opcode 10000; it sets
`halted` and leaves `pc`, the registers and memory as they are. -/
def Obligations.HaltSetsOnlyHalted : Prop :=
  (∀ w : Word, opcodeIs w 0b10000 → decode w = .ok .halt) ∧
  (∀ s : State, ∃ t, exec .halt s = .next t ∧ t.halted = true ∧ t.pc = s.pc ∧
    sameRegs s t ∧ sameMemory s t ∧ t.fault = s.fault ∧ t.code = s.code ∧ t.params = s.params)

/-! ### Loads and stores -/

/-- R110, R61 (the wrap is the spec's decision D11): the address is the base register plus the signed,
unscaled displacement -16 to +15, modulo 2^16, for any base register, and a memory instruction does
not modify its base register unless it loads into it. -/
def Obligations.EffectiveAddressIsBasePlusDisplacement : Prop :=
  (∀ (ra : Reg) (d : BitVec 5) (s : State),
    addressIs (effectiveAddress ra d s) ra d s ∧ -16 ≤ d.toInt ∧ d.toInt ≤ 15) ∧
  (∀ (rd ra : Reg) (d : BitVec 5) (s t : State),
    ((exec (.lw rd ra d) s = .next t ∨ exec (.lwl rd ra d) s = .next t) ∧ rd ≠ ra) ∨
      exec (.sw rd ra d) s = .next t ∨ exec (.swl rd ra d) s = .next t →
    readReg ra t = readReg ra s)

/-- R111: LW loads the whole cell at the effective address into Rd and advances `pc`; outside RAM it
raises `Fault_DataAddress`, and then Rd and `pc` are unchanged. -/
def Obligations.LoadWordReadsTheCell : Prop :=
  (∀ w : Word, opcodeIs w 0b00001 → ∃ rd ra d, decode w = .ok (.lw rd ra d) ∧
    rdIs w rd ∧ raIs w ra ∧ d.toNat = w.toNat % 32) ∧
  (∀ (s : State) (rd ra : Reg) (d : BitVec 5),
    addressIs (effectiveAddress ra d s) ra d s ∧
    (accessAllowed (effectiveAddress ra d s) s →
      ∃ t, exec (.lw rd ra d) s = .next t ∧
        writesOnly rd (cell (effectiveAddress ra d s) s).toNat s t) ∧
    (s.params.ramWords ≤ (effectiveAddress ra d s).toNat →
      exec (.lw rd ra d) s = .fault (.dataAddress (effectiveAddress ra d s) s.pc) ∧
      ∀ w, running s → fetch s.pc s = .ok w → decode w = .ok (.lw rd ra d) →
        readReg rd (advance s) = readReg rd s ∧ (advance s).pc = s.pc))

/-- LW.L (spec/41_load_store.md; the spec's decisions D8 and D26): as LW, the loaded word's bits 15:8
replaced by 0. -/
def Obligations.LoadByteZeroExtendsTheLowByte : Prop :=
  (∀ w : Word, opcodeIs w 0b10001 → ∃ rd ra d, decode w = .ok (.lwl rd ra d) ∧
    rdIs w rd ∧ raIs w ra ∧ d.toNat = w.toNat % 32) ∧
  (∀ (s : State) (rd ra : Reg) (d : BitVec 5),
    (accessAllowed (effectiveAddress ra d s) s →
      ∃ t, exec (.lwl rd ra d) s = .next t ∧
        writesOnly rd ((cell (effectiveAddress ra d s) s).toNat % 256) s t) ∧
    (s.params.ramWords ≤ (effectiveAddress ra d s).toNat →
      exec (.lwl rd ra d) s = .fault (.dataAddress (effectiveAddress ra d s) s.pc)))

/-- R113: SW stores the whole of register Rd in the cell at the effective address, and every other
cell reads as before; outside RAM it raises `Fault_DataAddress`, and then memory and `pc` are
unchanged. -/
def Obligations.StoreWordWritesOneCell : Prop :=
  (∀ w : Word, opcodeIs w 0b00010 → ∃ rd ra d, decode w = .ok (.sw rd ra d) ∧
    rdIs w rd ∧ raIs w ra ∧ d.toNat = w.toNat % 32) ∧
  (∀ (s : State) (rd ra : Reg) (d : BitVec 5),
    addressIs (effectiveAddress ra d s) ra d s ∧
    (accessAllowed (effectiveAddress ra d s) s →
      ∃ t, exec (.sw rd ra d) s = .next t ∧
        storesOnly (effectiveAddress ra d s) (readReg rd s).toNat s t) ∧
    (s.params.ramWords ≤ (effectiveAddress ra d s).toNat →
      exec (.sw rd ra d) s = .fault (.dataAddress (effectiveAddress ra d s) s.pc) ∧
      ∀ w, running s → fetch s.pc s = .ok w → decode w = .ok (.sw rd ra d) →
        sameMemory s (advance s) ∧ (advance s).pc = s.pc))

/-- SW.L (spec/41_load_store.md; the spec's decisions D8 and D26): the whole cell receives the low
byte of Rd, its bits 15:8 becoming 0. -/
def Obligations.StoreByteClearsTheUpperByte : Prop :=
  (∀ w : Word, opcodeIs w 0b10010 → ∃ rd ra d, decode w = .ok (.swl rd ra d) ∧
    rdIs w rd ∧ raIs w ra ∧ d.toNat = w.toNat % 32) ∧
  (∀ (s : State) (rd ra : Reg) (d : BitVec 5),
    (accessAllowed (effectiveAddress ra d s) s →
      ∃ t, exec (.swl rd ra d) s = .next t ∧
        storesOnly (effectiveAddress ra d s) ((readReg rd s).toNat % 256) s t) ∧
    (s.params.ramWords ≤ (effectiveAddress ra d s).toNat →
      exec (.swl rd ra d) s = .fault (.dataAddress (effectiveAddress ra d s) s.pc)))

/-- R51 to R53, R57, R184 (the spec's decisions D4, D5): a memory instruction faults with
`Fault_DataAddress` outside RAM, even inside the image, and with `Fault_CodeRegionAccess` inside the
image of a machine whose `UNIFIED_MEMORY` is not fixed. -/
def Obligations.MemoryInstructionsFaultInOrder : Prop :=
  ∀ (i : Instr) (s : State) (a : Word), accessAddress i s = some a →
    (s.params.ramWords ≤ a.toNat → exec i s = .fault (.dataAddress a s.pc)) ∧
    (∀ image, s.code = .unfixed image → inside image.length a → a.toNat < s.params.ramWords →
      exec i s = .fault (.codeRegionAccess a s.pc))

/-- R52, R64, R112, R114: a load returns the value of the store before it at the same address (the
base register is the same and the store does not change it); the .L forms keep the low byte. -/
def Obligations.LoadReturnsTheStoredValue : Prop :=
  ∀ (s : State) (rd rx ra : Reg) (d : BitVec 5), accessAllowed (effectiveAddress ra d s) s →
    ∃ t b u v x y, exec (.sw rd ra d) s = .next t ∧ exec (.swl rd ra d) s = .next b ∧
      exec (.lw rx ra d) t = .next u ∧ readReg rx u = readReg rd s ∧
      exec (.lwl rx ra d) t = .next v ∧ (readReg rx v).toNat = (readReg rd s).toNat % 256 ∧
      exec (.lw rx ra d) b = .next x ∧ (readReg rx x).toNat = (readReg rd s).toNat % 256 ∧
      exec (.lwl rx ra d) b = .next y ∧ (readReg rx y).toNat = (readReg rd s).toNat % 256

/-- R56, R67 (the spec's decision D5): in a unified memory a store into the image is what the next
fetch of that address returns; otherwise no instruction changes what any address fetches. -/
def Obligations.StoresReachFetchesOnlyWhenUnified : Prop :=
  (∀ (s : State) (rd ra : Reg) (d : BitVec 5) (len : Nat), s.code = .shared len →
    accessAllowed (effectiveAddress ra d s) s → inside len (effectiveAddress ra d s) →
    ∃ t, exec (.sw rd ra d) s = .next t ∧
      fetch (effectiveAddress ra d s) t = .ok (readReg rd s)) ∧
  (∀ (i : Instr) (s t : State) (image : List Word),
    s.code = .separate image ∨ s.code = .unfixed image → exec i s = .next t →
    ∀ a, fetch a t = fetch a s)

/-! ### Moves and arithmetic -/

/-- R131: MOV copies Ra to Rd; bits 4:0 of its word are ignored. -/
def Obligations.MoveCopiesTheRegister : Prop :=
  (∀ w : Word, opcodeIs w 0b00011 → ∃ rd ra, decode w = .ok (.mov rd ra) ∧ rdIs w rd ∧ raIs w ra) ∧
  (∀ (s : State) (rd ra : Reg), ∃ t, exec (.mov rd ra) s = .next t ∧
    writesOnly rd (readReg ra s).toNat s t)

/-- MOVI writes its 8-bit immediate, 0 to 255, to Rd (spec/42_move.md; zero extension is the spec's
decision D7). -/
def Obligations.MoveImmediateZeroExtends : Prop :=
  (∀ w : Word, opcodeIs w 0b00100 → ∃ rd n, decode w = .ok (.movi rd n) ∧ rdIs w rd ∧
    n.toNat = w.toNat % 256) ∧
  (∀ (s : State) (rd : Reg) (n : BitVec 8), ∃ t, exec (.movi rd n) s = .next t ∧
    writesOnly rd n.toNat s t)

/-- R141: ADD adds Ra to Rd modulo 2^16; no flag, no exception. -/
def Obligations.AddIsTheSumModuloTwoToSixteen : Prop :=
  (∀ w : Word, opcodeIs w 0b01000 → ∃ rd ra, decode w = .ok (.add rd ra) ∧ rdIs w rd ∧ raIs w ra) ∧
  (∀ (s : State) (rd ra : Reg), ∃ t, exec (.add rd ra) s = .next t ∧
    writesOnly rd (((readReg rd s).toNat + (readReg ra s).toNat) % 65536) s t)

/-- ADDI adds its 8-bit immediate, 0 to 255, to Rd modulo 2^16 (spec/43_arithmetic.md; zero
extension is the spec's decision D7). -/
def Obligations.AddImmediateIsTheSum : Prop :=
  (∀ w : Word, opcodeIs w 0b01001 → ∃ rd n, decode w = .ok (.addi rd n) ∧ rdIs w rd ∧
    n.toNat = w.toNat % 256) ∧
  (∀ (s : State) (rd : Reg) (n : BitVec 8), ∃ t, exec (.addi rd n) s = .next t ∧
    writesOnly rd (((readReg rd s).toNat + n.toNat) % 65536) s t)

/-- R143: SUB subtracts Ra from Rd modulo 2^16; no flag, no exception. -/
def Obligations.SubtractIsTheDifferenceModuloTwoToSixteen : Prop :=
  (∀ w : Word, opcodeIs w 0b01010 → ∃ rd ra, decode w = .ok (.sub rd ra) ∧ rdIs w rd ∧ raIs w ra) ∧
  (∀ (s : State) (rd ra : Reg), ∃ t, exec (.sub rd ra) s = .next t ∧
    writesOnly rd (((readReg rd s).toNat + 65536 - (readReg ra s).toNat) % 65536) s t)

/-- SUBI subtracts its 8-bit immediate, 0 to 255, from Rd modulo 2^16 (spec/43_arithmetic.md; zero
extension is the spec's decision D7). -/
def Obligations.SubtractImmediateIsTheDifference : Prop :=
  (∀ w : Word, opcodeIs w 0b01011 → ∃ rd n, decode w = .ok (.subi rd n) ∧ rdIs w rd ∧
    n.toNat = w.toNat % 256) ∧
  (∀ (s : State) (rd : Reg) (n : BitVec 8), ∃ t, exec (.subi rd n) s = .next t ∧
    writesOnly rd (((readReg rd s).toNat + 65536 - n.toNat) % 65536) s t)

/-! ### The status word, CMP and JMP -/

/-- R26 (the spec's decisions D9, D10): for every layout of three distinct positions a status word
carries its three flags there and 0 in the other thirteen bits. -/
def Obligations.StatusWordHoldsItsFlags : Prop :=
  ∀ (p : Config.Params) (z s o : Bool), p.wf →
    zeroFlag p (mkFlags p z s o) = z ∧ signFlag p (mkFlags p z s o) = s ∧
    overflowFlag p (mkFlags p z s o) = o ∧
    (∀ k : Fin 16, k ≠ p.zfBit → k ≠ p.sfBit → k ≠ p.ofBit →
      (mkFlags p z s o).getLsbD k.val = false)

/-- R162: CMP writes the status word of Ra - Rb to Rd: each flag by its bit formula at its position,
every other bit 0; the difference goes nowhere and F changes only if it is Rd. -/
def Obligations.CompareWritesTheStatusWord : Prop :=
  (∀ w : Word, opcodeIs w 0b01101 → ∃ rd ra rb, decode w = .ok (.cmp rd ra rb) ∧
    rdIs w rd ∧ raIs w ra ∧ rbIs w rb) ∧
  (∀ (s : State) (rd ra rb : Reg) (a b r : Nat), s.params.wf →
    a = (readReg ra s).toNat → b = (readReg rb s).toNat → r = (a + 65536 - b) % 65536 →
    ∃ (t : State) (v : Word), exec (.cmp rd ra rb) s = .next t ∧ writesOnly rd v.toNat s t ∧
      (∀ k : Fin 16, v.getLsbD k.val =
        if k = s.params.zfBit then decide (r = 0)
        else if k = s.params.sfBit then decide (32768 ≤ r)
        else if k = s.params.ofBit then
          (decide (32768 ≤ a) != decide (32768 ≤ b)) && (decide (32768 ≤ r) != decide (32768 ≤ a))
        else false))

/-- R161 (definitions the spec takes from general knowledge, decision D14): ZF says the operands are
equal, OF that the exact signed difference is outside -32768 to 32767, and SF differs from OF exactly
when the left operand is the smaller signed number. -/
def Obligations.ComparisonFlagsMeanSignedOrder : Prop :=
  ∀ a b : Word,
    (compareZero a b = true ↔ a = b) ∧
    (compareOverflow a b = true ↔ a.toInt - b.toInt < -32768 ∨ 32767 < a.toInt - b.toInt) ∧
    (compareSign a b ≠ compareOverflow a b ↔ a.toInt < b.toInt)

/-- JMP (spec/44_compare_jump.md; the spec's decisions D15 and D23): opcode 01100 decodes by its
condition code; code 0 jumps to the whole value of Rd whatever F holds, and a code above 8 raises
`Fault_ReservedCondition` with the instruction word. -/
def Obligations.JumpIsUnconditionalOrReserved : Prop :=
  (∀ w : Word, opcodeIs w 0b01100 → ∃ rd, rdIs w rd ∧
    (w.toNat % 256 = 1 → decode w = .ok (.je rd)) ∧ (w.toNat % 256 = 2 → decode w = .ok (.jne rd)) ∧
    (w.toNat % 256 = 3 → decode w = .ok (.jg rd)) ∧ (w.toNat % 256 = 4 → decode w = .ok (.jge rd)) ∧
    (w.toNat % 256 = 5 → decode w = .ok (.jl rd)) ∧ (w.toNat % 256 = 6 → decode w = .ok (.jle rd)) ∧
    (w.toNat % 256 = 7 → decode w = .ok (.js rd)) ∧ (w.toNat % 256 = 8 → decode w = .ok (.jns rd)) ∧
    (w.toNat % 256 = 0 ∨ 8 < w.toNat % 256 →
      ∃ cc, cc.toNat = w.toNat % 256 ∧ decode w = .ok (.jmp rd cc))) ∧
  (∀ (s : State) (rd : Reg), ∃ t, exec (.jmp rd 0) s = .next t ∧ jumpsIf True rd s t) ∧
  (∀ (s : State) (rd : Reg) (cc : BitVec 8), 8 < cc.toNat →
    ∃ w : Word, w.toNat = 0b01100 * 2048 + rd.number.toNat * 256 + cc.toNat ∧
      exec (.jmp rd cc) s = .fault (.reservedCondition w s.pc))

/-- R164's table (Table 5), with R163's fall-through (the spec's decision D23): each of JMP's aliases
jumps to Rd exactly when the flags in F meet its row. -/
def Obligations.ConditionalJumpsFollowTheTable : Prop :=
  ∀ (s : State) (rd : Reg),
    (∃ t, exec (.je rd) s = .next t ∧ jumpsIf (flagZ s = true) rd s t) ∧
    (∃ t, exec (.jne rd) s = .next t ∧ jumpsIf (flagZ s = false) rd s t) ∧
    (∃ t, exec (.jg rd) s = .next t ∧ jumpsIf (flagZ s = false ∧ flagS s = flagO s) rd s t) ∧
    (∃ t, exec (.jge rd) s = .next t ∧ jumpsIf (flagS s = flagO s) rd s t) ∧
    (∃ t, exec (.jl rd) s = .next t ∧ jumpsIf (flagS s ≠ flagO s) rd s t) ∧
    (∃ t, exec (.jle rd) s = .next t ∧ jumpsIf (flagZ s = true ∨ flagS s ≠ flagO s) rd s t) ∧
    (∃ t, exec (.js rd) s = .next t ∧ jumpsIf (flagS s = true) rd s t) ∧
    (∃ t, exec (.jns rd) s = .next t ∧ jumpsIf (flagS s = false) rd s t)

/-- R87: each alias is JMP with its condition code, in its word and in its effect. -/
def Obligations.AliasesAreJumpsWithTheirCode : Prop :=
  ∀ rd : Reg, ∀ x ∈ [(Instr.je rd, 1#8), (.jne rd, 2), (.jg rd, 3), (.jge rd, 4), (.jl rd, 5),
      (.jle rd, 6), (.js rd, 7), (.jns rd, 8)],
    encode x.1 = encode (.jmp rd x.2) ∧ ∀ s, exec x.1 s = exec (.jmp rd x.2) s

/-- R164, R161 (the spec's own reading of Table 5's names, on its decisions D9, D13, that CMP writes
the status word to F, D14 and D23): after `CMP F, Ra, Rb`, in every flag layout, a jump goes to Rd
exactly when the comparison it is named for is true of the operands as signed numbers (JS and JNS:
when bit 15 of the difference is 1, or 0), and to the next word otherwise. The target is read after
CMP has written F, so it is the status word itself where Rd is F. -/
def Obligations.CompareThenJumpDecidesSignedOrder : Prop :=
  ∀ (s : State) (ra rb rd : Reg) (a b : Int), s.params.wf →
    a = (readReg ra s).toInt → b = (readReg rb s).toInt →
    ∃ t, exec (.cmp .f ra rb) s = .next t ∧
      (∃ u, exec (.je rd) t = .next u ∧ jumpsIf (a = b) rd t u) ∧
      (∃ u, exec (.jne rd) t = .next u ∧ jumpsIf (a ≠ b) rd t u) ∧
      (∃ u, exec (.jg rd) t = .next u ∧ jumpsIf (a > b) rd t u) ∧
      (∃ u, exec (.jge rd) t = .next u ∧ jumpsIf (a ≥ b) rd t u) ∧
      (∃ u, exec (.jl rd) t = .next u ∧ jumpsIf (a < b) rd t u) ∧
      (∃ u, exec (.jle rd) t = .next u ∧ jumpsIf (a ≤ b) rd t u) ∧
      (∃ u, exec (.js rd) t = .next u ∧ jumpsIf (32768 ≤ (a - b) % 65536) rd t u) ∧
      (∃ u, exec (.jns rd) t = .next u ∧ jumpsIf ((a - b) % 65536 < 32768) rd t u)

/-! ### Rules of the whole machine -/

/-- R27, R29, R160 (the spec's decision D13): the only register an instruction can change is its
destination; so F changes only under an instruction whose Rd is F, and nothing maintains G and H. -/
def Obligations.OnlyTheDestinationRegisterChanges : Prop :=
  ∀ (i : Instr) (s t : State), exec i s = .next t →
    ∀ r, destination i ≠ some r → readReg r t = readReg r s

/-- R24, R27, R163 (the spec's decisions D13, D19, D23): a register the instruction does not name,
and F too unless it is a jump on a condition, neither affects what the instruction does nor is
affected. -/
def Obligations.UnnamedRegistersAreIndependent : Prop :=
  ∀ (i : Instr) (r : Reg) (v : Word) (s : State), r ∉ touched i →
    exec i (writeReg r v s) = mapNext (writeReg r v) (exec i s)

/-- R60: only SW and SW.L change data memory, and only the cell at their effective address. -/
def Obligations.OnlyStoresChangeMemory : Prop :=
  ∀ (i : Instr) (s t : State), exec i s = .next t →
    ∀ a : Word, storeAddress i s ≠ some a → cell a t = cell a s

/-- R28 (the wrap is the spec's decision D25): every instruction but a taken jump and HALT advances
`pc` by one; HALT leaves it; a jump advances it or loads it with the whole of Rd. -/
def Obligations.ProgramCounterAdvancesByOne : Prop :=
  ∀ (i : Instr) (s t : State), exec i s = .next t →
    (i = .halt → t.pc = s.pc) ∧
    (i ≠ .halt → isJump i = false → pcPlusOne s t) ∧
    (isJump i = true → pcPlusOne s t ∨ t.pc = readReg (rdField (encode i)) s)

/-- R30, R201 (the spec's decisions D12, D17, D29): no instruction sets `halted` but HALT, none clears
it, and none changes the fault mark, the parameters or where the program image is held. -/
def Obligations.OnlyHaltHaltsAndLaunchIsFixed : Prop :=
  ∀ (i : Instr) (s t : State), exec i s = .next t →
    (t.halted = true ↔ s.halted = true ∨ i = .halt) ∧
    t.fault = s.fault ∧ t.params = s.params ∧ t.code = s.code

/-- R181, R182, R190: an instruction executes in every state, but for a memory instruction whose
access is not allowed and a JMP whose code Table 5 does not define; there is no mode and no
arithmetic fault. -/
def Obligations.InstructionsExecuteExceptListedFaults : Prop :=
  ∀ (i : Instr) (s : State),
    (∃ t, exec i s = .next t) ↔
      (∀ a, accessAddress i s = some a → accessAllowed a s) ∧
      (∀ rd cc, i = .jmp rd cc → cc.toNat ≤ 8)

/-- Every instruction of the table has a meaning: neither `exec` nor a step is ever refused. -/
def Obligations.NothingIsRefused : Prop :=
  (∀ (i : Instr) (s : State) (x : Refusal), exec i s ≠ .refused x) ∧
  (∀ (s : State) (x : Refusal), step s ≠ .refused x)
end

