-- ==== Sys2Proof/Laws/Encoding.lean ====
section
/-! SUPPORT. The formats and the fields as numbers, and reading each field of each format back. -/

namespace Sys2Proof

@[simp] theorem Reg.ofNumber_number (r : Reg) : Reg.ofNumber r.number = r := by cases r <;> rfl

@[simp] theorem Reg.number_ofNumber : ∀ n : BitVec 3, (Reg.ofNumber n).number = n := by decide

theorem toNat_append_add {m n : Nat} (x : BitVec m) (y : BitVec n) :
    (x ++ y).toNat = x.toNat * 2 ^ n + y.toNat := by
  rw [BitVec.toNat_append, ← Nat.shiftLeft_add_eq_or_of_lt y.isLt, Nat.shiftLeft_eq]

theorem type1_toNat (op : BitVec 5) (rd ra : Reg) (d : BitVec 5) :
    (type1 op rd ra d).toNat =
      op.toNat * 2048 + rd.number.toNat * 256 + ra.number.toNat * 32 + d.toNat := by
  change BitVec.toNat (w := 5 + 3 + 3 + 5) (op ++ rd.number ++ ra.number ++ d) = _
  simp only [toNat_append_add]
  omega

theorem type2_toNat (op : BitVec 5) (rd : Reg) (n : BitVec 8) :
    (type2 op rd n).toNat = op.toNat * 2048 + rd.number.toNat * 256 + n.toNat := by
  change BitVec.toNat (w := 5 + 3 + 8) (op ++ rd.number ++ n) = _
  simp only [toNat_append_add]
  omega

theorem type3_toNat (op : BitVec 5) (rd ra rb : Reg) :
    (type3 op rd ra rb).toNat =
      op.toNat * 2048 + rd.number.toNat * 256 + ra.number.toNat * 32 + rb.number.toNat * 4 := by
  change BitVec.toNat (w := 5 + 3 + 3 + 3 + 2) (op ++ rd.number ++ ra.number ++ rb.number ++ 0#2) = _
  simp only [toNat_append_add, BitVec.toNat_ofNat]
  omega

theorem opcodeOnly_toNat (op : BitVec 5) : (opcodeOnly op).toNat = op.toNat * 2048 := by
  change BitVec.toNat (w := 5 + 11) (op ++ 0#11) = _
  simp only [toNat_append_add, BitVec.toNat_ofNat]
  omega

theorem opcodeField_toNat (w : Word) : (opcodeField w).toNat = w.toNat / 2048 := by
  have := w.isLt
  simp only [opcodeField, BitVec.extractLsb'_toNat, Nat.shiftRight_eq_div_pow]
  omega

theorem rdField_toNat (w : Word) : (rdField w).number.toNat = w.toNat / 256 % 8 := by
  simp only [rdField, Reg.number_ofNumber, BitVec.extractLsb'_toNat, Nat.shiftRight_eq_div_pow]

theorem raField_toNat (w : Word) : (raField w).number.toNat = w.toNat / 32 % 8 := by
  simp only [raField, Reg.number_ofNumber, BitVec.extractLsb'_toNat, Nat.shiftRight_eq_div_pow]

theorem rbField_toNat (w : Word) : (rbField w).number.toNat = w.toNat / 4 % 8 := by
  simp only [rbField, Reg.number_ofNumber, BitVec.extractLsb'_toNat, Nat.shiftRight_eq_div_pow]

theorem simm5Field_toNat (w : Word) : (simm5Field w).toNat = w.toNat % 32 := by
  simp only [simm5Field, BitVec.extractLsb'_toNat, Nat.shiftRight_eq_div_pow]
  omega

theorem imm8Field_toNat (w : Word) : (imm8Field w).toNat = w.toNat % 256 := by
  simp only [imm8Field, BitVec.extractLsb'_toNat, Nat.shiftRight_eq_div_pow]
  omega

/-- Two registers with the same number are the same. -/
theorem Reg.eq_of_number_toNat (r q : Reg) (h : r.number.toNat = q.number.toNat) : r = q := by
  rw [← Reg.ofNumber_number r, ← Reg.ofNumber_number q, BitVec.eq_of_toNat_eq h]

@[simp] theorem opcodeField_type1 (op : BitVec 5) (rd ra : Reg) (d : BitVec 5) :
    opcodeField (type1 op rd ra d) = op := by
  apply BitVec.eq_of_toNat_eq
  rw [opcodeField_toNat, type1_toNat]
  omega

@[simp] theorem rdField_type1 (op : BitVec 5) (rd ra : Reg) (d : BitVec 5) :
    rdField (type1 op rd ra d) = rd := by
  apply Reg.eq_of_number_toNat
  rw [rdField_toNat, type1_toNat]
  omega

@[simp] theorem raField_type1 (op : BitVec 5) (rd ra : Reg) (d : BitVec 5) :
    raField (type1 op rd ra d) = ra := by
  apply Reg.eq_of_number_toNat
  rw [raField_toNat, type1_toNat]
  omega

@[simp] theorem simm5Field_type1 (op : BitVec 5) (rd ra : Reg) (d : BitVec 5) :
    simm5Field (type1 op rd ra d) = d := by
  apply BitVec.eq_of_toNat_eq
  rw [simm5Field_toNat, type1_toNat]
  omega

@[simp] theorem opcodeField_type2 (op : BitVec 5) (rd : Reg) (n : BitVec 8) :
    opcodeField (type2 op rd n) = op := by
  apply BitVec.eq_of_toNat_eq
  rw [opcodeField_toNat, type2_toNat]
  omega

@[simp] theorem rdField_type2 (op : BitVec 5) (rd : Reg) (n : BitVec 8) :
    rdField (type2 op rd n) = rd := by
  apply Reg.eq_of_number_toNat
  rw [rdField_toNat, type2_toNat]
  omega

@[simp] theorem imm8Field_type2 (op : BitVec 5) (rd : Reg) (n : BitVec 8) :
    imm8Field (type2 op rd n) = n := by
  apply BitVec.eq_of_toNat_eq
  rw [imm8Field_toNat, type2_toNat]
  omega

@[simp] theorem opcodeField_type3 (op : BitVec 5) (rd ra rb : Reg) :
    opcodeField (type3 op rd ra rb) = op := by
  apply BitVec.eq_of_toNat_eq
  rw [opcodeField_toNat, type3_toNat]
  omega

@[simp] theorem rdField_type3 (op : BitVec 5) (rd ra rb : Reg) :
    rdField (type3 op rd ra rb) = rd := by
  apply Reg.eq_of_number_toNat
  rw [rdField_toNat, type3_toNat]
  omega

@[simp] theorem raField_type3 (op : BitVec 5) (rd ra rb : Reg) :
    raField (type3 op rd ra rb) = ra := by
  apply Reg.eq_of_number_toNat
  rw [raField_toNat, type3_toNat]
  omega

@[simp] theorem rbField_type3 (op : BitVec 5) (rd ra rb : Reg) :
    rbField (type3 op rd ra rb) = rb := by
  apply Reg.eq_of_number_toNat
  rw [rbField_toNat, type3_toNat]
  omega

@[simp] theorem opcodeField_opcodeOnly (op : BitVec 5) : opcodeField (opcodeOnly op) = op := by
  apply BitVec.eq_of_toNat_eq
  rw [opcodeField_toNat, opcodeOnly_toNat]
  omega

end Sys2Proof
end

