-- ==== Sys2Proof/Laws/State.lean ====
section
/-! SUPPORT. One lemma per field per update, and reading a register after writing one. -/

namespace Sys2Proof.Machine

@[simp] theorem writeReg_pc (r : Reg) (v : Word) (s : State) : (writeReg r v s).pc = s.pc := rfl
@[simp] theorem writeReg_ram (r : Reg) (v : Word) (s : State) : (writeReg r v s).ram = s.ram := rfl
@[simp] theorem writeReg_code (r : Reg) (v : Word) (s : State) : (writeReg r v s).code = s.code := rfl
@[simp] theorem writeReg_halted (r : Reg) (v : Word) (s : State) :
    (writeReg r v s).halted = s.halted := rfl
@[simp] theorem writeReg_fault (r : Reg) (v : Word) (s : State) :
    (writeReg r v s).fault = s.fault := rfl
@[simp] theorem writeReg_params (r : Reg) (v : Word) (s : State) :
    (writeReg r v s).params = s.params := rfl

@[simp] theorem setPc_regs (a : Word) (s : State) : (setPc a s).regs = s.regs := rfl
@[simp] theorem setPc_pc (a : Word) (s : State) : (setPc a s).pc = a := rfl
@[simp] theorem setPc_ram (a : Word) (s : State) : (setPc a s).ram = s.ram := rfl
@[simp] theorem setPc_code (a : Word) (s : State) : (setPc a s).code = s.code := rfl
@[simp] theorem setPc_halted (a : Word) (s : State) : (setPc a s).halted = s.halted := rfl
@[simp] theorem setPc_fault (a : Word) (s : State) : (setPc a s).fault = s.fault := rfl
@[simp] theorem setPc_params (a : Word) (s : State) : (setPc a s).params = s.params := rfl

@[simp] theorem advancePc_regs (s : State) : (advancePc s).regs = s.regs := rfl
@[simp] theorem advancePc_pc (s : State) : (advancePc s).pc = s.pc + 1 := rfl
@[simp] theorem advancePc_ram (s : State) : (advancePc s).ram = s.ram := rfl
@[simp] theorem advancePc_code (s : State) : (advancePc s).code = s.code := rfl
@[simp] theorem advancePc_halted (s : State) : (advancePc s).halted = s.halted := rfl
@[simp] theorem advancePc_fault (s : State) : (advancePc s).fault = s.fault := rfl
@[simp] theorem advancePc_params (s : State) : (advancePc s).params = s.params := rfl

@[simp] theorem setCell_regs (a v : Word) (s : State) : (setCell a v s).regs = s.regs := rfl
@[simp] theorem setCell_pc (a v : Word) (s : State) : (setCell a v s).pc = s.pc := rfl
@[simp] theorem setCell_ram (a v : Word) (s : State) :
    (setCell a v s).ram = Memory.write s.ram a.toNat v := rfl
@[simp] theorem setCell_code (a v : Word) (s : State) : (setCell a v s).code = s.code := rfl
@[simp] theorem setCell_halted (a v : Word) (s : State) : (setCell a v s).halted = s.halted := rfl
@[simp] theorem setCell_fault (a v : Word) (s : State) : (setCell a v s).fault = s.fault := rfl
@[simp] theorem setCell_params (a v : Word) (s : State) : (setCell a v s).params = s.params := rfl

@[simp] theorem recordFault_regs (f : Fault) (s : State) : (recordFault f s).regs = s.regs := rfl
@[simp] theorem recordFault_pc (f : Fault) (s : State) : (recordFault f s).pc = s.pc := rfl
@[simp] theorem recordFault_ram (f : Fault) (s : State) : (recordFault f s).ram = s.ram := rfl
@[simp] theorem recordFault_code (f : Fault) (s : State) : (recordFault f s).code = s.code := rfl
@[simp] theorem recordFault_halted (f : Fault) (s : State) :
    (recordFault f s).halted = s.halted := rfl
@[simp] theorem recordFault_fault (f : Fault) (s : State) : (recordFault f s).fault = some f := rfl
@[simp] theorem recordFault_params (f : Fault) (s : State) :
    (recordFault f s).params = s.params := rfl

/-- A register reads as the word written to it: none is hard-wired (R22). -/
@[simp] theorem readReg_writeReg_same (r : Reg) (v : Word) (s : State) :
    readReg r (writeReg r v s) = v := by cases r <;> rfl

/-- Writing a register leaves every other register alone. -/
theorem readReg_writeReg_other (r q : Reg) (v : Word) (s : State) (h : r ≠ q) :
    readReg r (writeReg q v s) = readReg r s := by
  cases r <;> cases q <;> first | rfl | exact absurd rfl h

/-- `readReg` looks at the register file alone. -/
theorem readReg_of_regs (r : Reg) (s t : State) (h : t.regs = s.regs) :
    readReg r t = readReg r s := by cases r <;> simp only [readReg, h]

@[simp] theorem readReg_setPc (r : Reg) (a : Word) (s : State) :
    readReg r (setPc a s) = readReg r s := readReg_of_regs r s _ rfl

@[simp] theorem readReg_advancePc (r : Reg) (s : State) :
    readReg r (advancePc s) = readReg r s := readReg_of_regs r s _ rfl

@[simp] theorem readReg_setCell (r : Reg) (a v : Word) (s : State) :
    readReg r (setCell a v s) = readReg r s := readReg_of_regs r s _ rfl

@[simp] theorem readReg_recordFault (r : Reg) (f : Fault) (s : State) :
    readReg r (recordFault f s) = readReg r s := readReg_of_regs r s _ rfl

/-- Register writes to different registers commute. -/
theorem writeReg_comm (r q : Reg) (v w : Word) (s : State) (h : r ≠ q) :
    writeReg r v (writeReg q w s) = writeReg q w (writeReg r v s) := by
  cases r <;> cases q <;> first | rfl | exact absurd rfl h

end Sys2Proof.Machine
end

