-- ==== Sys2Proof/Laws/Memory.lean ====
section
/-! SUPPORT. Data memory: reading after writing, and the canonical form that every operation keeps. -/

namespace Sys2Proof.Machine

theorem Memory.lookup_write_same (m : Memory) (a : Nat) (v : Word) :
    Memory.lookup (Memory.write m a v) a = some v := by
  induction m with
  | nil => simp [Memory.write, Memory.lookup]
  | cons c m ih =>
    obtain ⟨k, w⟩ := c
    rw [Memory.write]
    split
    · simp [Memory.lookup]
    · split
      · simp [Memory.lookup]
      · rename_i h
        simp [Memory.lookup, Ne.symm h, ih]

theorem Memory.lookup_write_other (m : Memory) (a b : Nat) (v : Word) (h : b ≠ a) :
    Memory.lookup (Memory.write m a v) b = Memory.lookup m b := by
  induction m with
  | nil => simp [Memory.write, Memory.lookup, Ne.symm h]
  | cons c m ih =>
    obtain ⟨k, w⟩ := c
    rw [Memory.write]
    split
    · simp [Memory.lookup, Ne.symm h]
    · split
      · rename_i hk
        subst hk
        simp [Memory.lookup, Ne.symm h]
      · simp [Memory.lookup, ih]

/-- What a write lists: the written cell, and cells that were listed. -/
theorem Memory.mem_write (m : Memory) (a : Nat) (v : Word) (c : Nat × Word)
    (h : c ∈ Memory.write m a v) : c.1 = a ∨ c ∈ m := by
  induction m with
  | nil =>
    simp [Memory.write] at h
    exact .inl (by simp [h])
  | cons k m ih =>
    obtain ⟨k, w⟩ := k
    rw [Memory.write] at h
    split at h
    · rcases List.mem_cons.1 h with rfl | h
      exacts [.inl rfl, .inr h]
    · split at h
      · rcases List.mem_cons.1 h with rfl | h
        exacts [.inl rfl, .inr (List.mem_cons_of_mem _ h)]
      · rcases List.mem_cons.1 h with rfl | h
        · exact .inr (by simp)
        · exact (ih h).imp_right (List.mem_cons_of_mem _)

/-- A write keeps the canonical form. -/
theorem Memory.wf_write (m : Memory) (a : Nat) (v : Word) (h : Memory.wf m) :
    Memory.wf (Memory.write m a v) := by
  induction m with
  | nil => simp [Memory.wf, Memory.write]
  | cons c m ih =>
    obtain ⟨k, w⟩ := c
    obtain ⟨hk, hm⟩ := List.pairwise_cons.1 h
    rw [Memory.write]
    split
    · rename_i hak
      refine List.pairwise_cons.2 ⟨fun c hc => ?_, h⟩
      rcases List.mem_cons.1 hc with rfl | hc
      · exact hak
      · exact lt_trans hak (hk c hc)
    · split
      · rename_i hak
        subst hak
        exact List.pairwise_cons.2 ⟨hk, hm⟩
      · refine List.pairwise_cons.2 ⟨fun c hc => ?_, ih hm⟩
        rcases Memory.mem_write m a v c hc with h' | h'
        · show k < c.1
          omega
        · exact hk c h'

/-- A write below a bound keeps every cell below it. -/
theorem Memory.below_write (m : Memory) (a n : Nat) (v : Word) (h : Memory.below m n) (ha : a < n) :
    Memory.below (Memory.write m a v) n := fun c hc => by
  rcases Memory.mem_write m a v c hc with h' | h'
  · omega
  · exact h c h'

theorem Memory.wf_writeAll (m : Memory) (l : List (Word × Word)) (h : Memory.wf m) :
    Memory.wf (Memory.writeAll m l) := by
  induction l generalizing m with
  | nil => exact h
  | cons c l ih => exact ih _ (Memory.wf_write m _ _ h)

/-- A cell that nothing lists has no value. -/
theorem Memory.lookup_eq_none (m : Memory) (a : Nat) (h : ∀ c ∈ m, c.1 ≠ a) :
    Memory.lookup m a = none := by
  induction m with
  | nil => rfl
  | cons c m ih =>
    simp [Memory.lookup, h c (by simp), ih fun d hd => h d (List.mem_cons_of_mem _ hd)]

/-- In the canonical form, equal memories are equal data. -/
theorem Memory.ext_lookup (m n : Memory) (hm : Memory.wf m) (hn : Memory.wf n)
    (h : ∀ a, Memory.lookup m a = Memory.lookup n a) : m = n := by
  induction m generalizing n with
  | nil =>
    cases n with
    | nil => rfl
    | cons c n => simpa [Memory.lookup] using h c.1
  | cons c m ih =>
    obtain ⟨hc, hm'⟩ := List.pairwise_cons.1 hm
    cases n with
    | nil => simpa [Memory.lookup] using h c.1
    | cons d n =>
      obtain ⟨hd, hn'⟩ := List.pairwise_cons.1 hn
      have key : c.1 = d.1 := by
        rcases Nat.lt_trichotomy c.1 d.1 with lt | eq | gt
        · have := h c.1
          rw [Memory.lookup_eq_none (d :: n) c.1 (by
            intro e he
            rcases List.mem_cons.1 he with rfl | he
            · omega
            · have := hd e he
              omega)] at this
          simp [Memory.lookup] at this
        · exact eq
        · have := h d.1
          rw [Memory.lookup_eq_none (c :: m) d.1 (by
            intro e he
            rcases List.mem_cons.1 he with rfl | he
            · omega
            · have := hc e he
              omega)] at this
          simp [Memory.lookup] at this
      have val : c.2 = d.2 := by simpa [Memory.lookup, key] using h c.1
      obtain rfl : c = d := Prod.ext key val
      rw [ih n hm' hn' fun a => ?_]
      by_cases ha : c.1 = a
      · subst ha
        rw [Memory.lookup_eq_none m _ fun e he => by have := hc e he; omega,
          Memory.lookup_eq_none n _ fun e he => by have := hd e he; omega]
      · simpa [Memory.lookup, ha] using h a

/-- The memory after reset has the canonical form. -/
theorem reset_ram_wf : Memory.wf State.reset.ram := List.Pairwise.nil

/-- Reading a cell after writing it. -/
@[simp] theorem cell_setCell_same (a v : Word) (s : State) : cell a (setCell a v s) = v := by
  simp [cell, Memory.lookup_write_same]

/-- Writing a cell leaves every other cell alone. -/
theorem cell_setCell_other (a b v : Word) (s : State) (h : b ≠ a) :
    cell b (setCell a v s) = cell b s := by
  have : b.toNat ≠ a.toNat := fun e => h (BitVec.eq_of_toNat_eq e)
  simp [cell, Memory.lookup_write_other _ _ _ _ this]

/-- `cell` looks at data memory alone. -/
theorem cell_of_ram (a : Word) (s t : State) (h : t.ram = s.ram) : cell a t = cell a s := by
  simp only [cell, h]

@[simp] theorem cell_setPc (a b : Word) (s : State) : cell a (setPc b s) = cell a s :=
  cell_of_ram a s _ rfl

@[simp] theorem cell_advancePc (a : Word) (s : State) : cell a (advancePc s) = cell a s :=
  cell_of_ram a s _ rfl

@[simp] theorem cell_writeReg (a : Word) (r : Reg) (v : Word) (s : State) :
    cell a (writeReg r v s) = cell a s := cell_of_ram a s _ rfl

end Sys2Proof.Machine
end

