-- ==== Sys2Proof/Laws/Ops.lean ====
section
/-! SUPPORT. What each shared operation can do, said once. -/

namespace Sys2Proof.Machine

/-- `implemented` is R51's `addr < RAM_WORDS`. -/
theorem implemented_iff (p : Config.Params) (a : Word) :
    implemented p a = true ↔ a.toNat < p.ramWords := by
  have := a.isLt
  simp only [implemented, Bool.or_eq_true, decide_eq_true_eq]
  omega

theorem inImage_iff (len : Nat) (a : Word) : inImage len a = true ↔ inside len a := by
  simp [inImage, inside]

/-- A data access raises nothing exactly when it is allowed. -/
theorem dataFault_eq_none_iff (a : Word) (s : State) :
    dataFault a s = none ↔ accessAllowed a s := by
  unfold dataFault accessAllowed
  rw [← implemented_iff]
  split
  · rename_i h
    cases hc : s.code <;> simp [closedToData, h, inImage_iff]
  · simp_all

/-- A data access outside RAM. -/
theorem dataFault_outside (a : Word) (s : State) (h : s.params.ramWords ≤ a.toNat) :
    dataFault a s = some (.dataAddress a s.pc) := by
  have : ¬ implemented s.params a = true := by rw [implemented_iff]; omega
  simp [dataFault, this]

/-- A data access inside RAM and inside the image of a machine with `UNIFIED_MEMORY` not fixed. -/
theorem dataFault_closed (a : Word) (s : State) (image : List Word) (hc : s.code = .unfixed image)
    (hi : inside image.length a) (h : a.toNat < s.params.ramWords) :
    dataFault a s = some (.codeRegionAccess a s.pc) := by
  have := (implemented_iff s.params a).2 h
  simp [dataFault, this, hc, closedToData, (inImage_iff _ _).2 hi]

/-- The three answers of a data access. -/
theorem dataFault_cases (a : Word) (s : State) :
    (accessAllowed a s ∧ dataFault a s = none) ∨
    (s.params.ramWords ≤ a.toNat ∧ dataFault a s = some (.dataAddress a s.pc)) ∨
    (∃ image, s.code = .unfixed image ∧ inside image.length a ∧ a.toNat < s.params.ramWords ∧
      dataFault a s = some (.codeRegionAccess a s.pc)) := by
  by_cases h : accessAllowed a s
  · exact .inl ⟨h, (dataFault_eq_none_iff a s).2 h⟩
  · by_cases hr : s.params.ramWords ≤ a.toNat
    · exact .inr (.inl ⟨hr, dataFault_outside a s hr⟩)
    · have hl : a.toNat < s.params.ramWords := by omega
      have hx : ∃ image, s.code = .unfixed image ∧ inside image.length a := by
        by_contra hn
        exact h ⟨hl, fun image hc hi => hn ⟨image, hc, hi⟩⟩
      obtain ⟨image, hc, hi⟩ := hx
      exact .inr (.inr ⟨image, hc, hi, hl, dataFault_closed a s image hc hi hl⟩)

theorem memRead_ok_iff (a v : Word) (s : State) :
    memRead a s = .ok v ↔ accessAllowed a s ∧ v = cell a s := by
  rw [← dataFault_eq_none_iff]
  unfold memRead
  cases dataFault a s <;> simp [eq_comm]

theorem memWrite_ok_iff (a v : Word) (s t : State) :
    memWrite a v s = .ok t ↔ accessAllowed a s ∧ t = setCell a v s := by
  rw [← dataFault_eq_none_iff]
  unfold memWrite
  cases dataFault a s <;> simp [eq_comm]

/-- Everything a load that completes does. -/
theorem loadVia_next_iff (f : Word → Word) (rd ra : Reg) (d : BitVec 5) (s t : State) :
    loadVia f rd ra d s = .next t ↔
      accessAllowed (effectiveAddress ra d s) s ∧
        t = advancePc (writeReg rd (f (cell (effectiveAddress ra d s) s)) s) := by
  rw [← dataFault_eq_none_iff]
  unfold loadVia memRead raise
  cases dataFault (effectiveAddress ra d s) s <;> simp [eq_comm]

/-- Everything a store that completes does. -/
theorem storeVia_next_iff (f : Word → Word) (rd ra : Reg) (d : BitVec 5) (s t : State) :
    storeVia f rd ra d s = .next t ↔
      accessAllowed (effectiveAddress ra d s) s ∧
        t = advancePc (setCell (effectiveAddress ra d s) (f (readReg rd s)) s) := by
  rw [← dataFault_eq_none_iff]
  unfold storeVia memWrite raise
  cases dataFault (effectiveAddress ra d s) s <;> simp [eq_comm]

/-- A load or a store raises the fault of its data access. -/
theorem loadVia_fault (f : Word → Word) (rd ra : Reg) (d : BitVec 5) (s : State) (x : Fault)
    (h : dataFault (effectiveAddress ra d s) s = some x) : loadVia f rd ra d s = .fault x := by
  simp [loadVia, memRead, raise, h]

theorem storeVia_fault (f : Word → Word) (rd ra : Reg) (d : BitVec 5) (s : State) (x : Fault)
    (h : dataFault (effectiveAddress ra d s) s = some x) : storeVia f rd ra d s = .fault x := by
  simp [storeVia, memWrite, raise, h]

/-- A status word read back, in every layout of three distinct positions, one bit at a time (R26). -/
theorem getLsbD_bitAt (n k : Fin 16) (b : Bool) :
    (bitAt n b).getLsbD k.val = (decide (k = n) && b) := by
  revert n k b
  decide

/-- The word an image holds at an address: the index is the offset from `RESET_PC` (R55). -/
theorem imageWord_eq_some_iff (image : List Word) (a w : Word) :
    imageWord image a = some w ↔
      inside image.length a ∧ image[a.toNat - Config.resetPc.toNat]? = some w := by
  unfold imageWord
  by_cases h : inside image.length a
  · rw [if_pos ((inImage_iff _ _).2 h)]
    exact ⟨fun e => ⟨h, e⟩, fun e => e.2⟩
  · rw [if_neg (by rw [inImage_iff]; exact h)]
    exact ⟨fun e => (nomatch e), fun e => absurd e.1 h⟩

/-- A word placed for the next fetch is what the next fetch reads, and the machine can step. -/
theorem fetch_placeNext (w : Word) (s : State) (h : Config.resetPc.toNat ≤ s.pc.toNat) :
    running (placeNext w s) ∧ fetch (placeNext w s).pc (placeNext w s) = .ok w := by
  have place : ∀ image : List Word, imageWord (placeWord image s.pc w) s.pc = some w := by
    intro image
    have hl : s.pc.toNat - Config.resetPc.toNat < (placeWord image s.pc w).length := by
      simp [placeWord]
      omega
    rw [imageWord_eq_some_iff]
    refine ⟨⟨h, by omega⟩, ?_⟩
    simp only [placeWord, List.length_set] at hl ⊢
    rw [List.getElem?_set_self hl]
  cases hc : s.code with
  | shared len =>
    refine ⟨⟨by simp [placeNext, hc], by simp [placeNext, hc]⟩, ?_⟩
    have : inImage (max len (s.pc.toNat + 1 - Config.resetPc.toNat)) s.pc = true := by
      rw [inImage_iff]
      constructor <;> omega
    simp [placeNext, hc, fetch, this, cell, Memory.lookup_write_same]
  | separate image =>
    exact ⟨⟨by simp [placeNext, hc], by simp [placeNext, hc]⟩, by
      simp [placeNext, hc, fetch, place]⟩
  | unfixed image =>
    exact ⟨⟨by simp [placeNext, hc], by simp [placeNext, hc]⟩, by
      simp [placeNext, hc, fetch, place]⟩

end Sys2Proof.Machine
end

