-- ==== Sys2Proof/Laws/PerInstr.lean ====
section
/-! SUPPORT. The family EncodedOpcode: one lemma per constructor of `Instr`, about its encoding. -/

namespace Sys2Proof.Laws.EncodedOpcode

/-- Bits 15:11 of the encoding are the instruction's opcode, whatever its operands (R71, R80). -/
def Statement (i : Instr) : Prop := opcodeField (encode i) = i.opcode

theorem nop : Statement .nop := opcodeField_opcodeOnly _

theorem lw (rd ra : Reg) (d : BitVec 5) : Statement (.lw rd ra d) :=
  opcodeField_type1 _ _ _ _

theorem sw (rd ra : Reg) (d : BitVec 5) : Statement (.sw rd ra d) :=
  opcodeField_type1 _ _ _ _

theorem mov (rd ra : Reg) : Statement (.mov rd ra) := opcodeField_type1 _ _ _ _

theorem movi (rd : Reg) (n : BitVec 8) : Statement (.movi rd n) :=
  opcodeField_type2 _ _ _

theorem add (rd ra : Reg) : Statement (.add rd ra) := opcodeField_type1 _ _ _ _

theorem addi (rd : Reg) (n : BitVec 8) : Statement (.addi rd n) :=
  opcodeField_type2 _ _ _

theorem sub (rd ra : Reg) : Statement (.sub rd ra) := opcodeField_type1 _ _ _ _

theorem subi (rd : Reg) (n : BitVec 8) : Statement (.subi rd n) :=
  opcodeField_type2 _ _ _

theorem jmp (rd : Reg) (n : BitVec 8) : Statement (.jmp rd n) :=
  opcodeField_type2 _ _ _

theorem cmp (rd ra rb : Reg) : Statement (.cmp rd ra rb) := opcodeField_type3 _ _ _ _

theorem halt : Statement .halt := opcodeField_opcodeOnly _

theorem lwl (rd ra : Reg) (d : BitVec 5) : Statement (.lwl rd ra d) :=
  opcodeField_type1 _ _ _ _

theorem swl (rd ra : Reg) (d : BitVec 5) : Statement (.swl rd ra d) :=
  opcodeField_type1 _ _ _ _

theorem je (rd : Reg) : Statement (.je rd) := opcodeField_type2 _ _ _

theorem jne (rd : Reg) : Statement (.jne rd) := opcodeField_type2 _ _ _

theorem jg (rd : Reg) : Statement (.jg rd) := opcodeField_type2 _ _ _

theorem jge (rd : Reg) : Statement (.jge rd) := opcodeField_type2 _ _ _

theorem jl (rd : Reg) : Statement (.jl rd) := opcodeField_type2 _ _ _

theorem jle (rd : Reg) : Statement (.jle rd) := opcodeField_type2 _ _ _

theorem js (rd : Reg) : Statement (.js rd) := opcodeField_type2 _ _ _

theorem jns (rd : Reg) : Statement (.jns rd) := opcodeField_type2 _ _ _

end Sys2Proof.Laws.EncodedOpcode
end

