-- ==== Sys2Proof/Laws/Step.lean ====
section
/-! SUPPORT. What a step can do, said once. -/

namespace Sys2Proof.Machine

/-- A step that goes on either finds the machine halted and leaves it as it is, or runs the instruction
that the word at `pc` decodes to, in the same state. -/
theorem step_next_iff (s t : State) :
    step s = .next t ↔
      (s.fault = none ∧ s.halted = true ∧ t = s) ∨
      (running s ∧ ∃ w i, fetch s.pc s = .ok w ∧ decode w = .ok i ∧ exec i s = .next t) := by
  unfold step running raise stayHalted fetchInstr
  cases s.fault with
  | some f => simp
  | none =>
    cases s.halted with
    | true => simp [eq_comm]
    | false =>
      cases fetch s.pc s with
      | error f => simp
      | ok w => cases h : decode w <;> simp [h]

/-- What an instruction that writes Rd and moves on answers, in every state. -/
theorem setAndAdvance_eq (rd : Reg) (v : Word) (s : State) :
    setAndAdvance rd v s = .next (advancePc (writeReg rd v s)) := rfl

/-- What a jump answers, in every state. -/
theorem jumpOn_eq (c : Cond) (rd : Reg) (s : State) :
    jumpOn c rd s = .next (setPc (if taken c s then readReg rd s else s.pc + 1) s) := rfl

/-- A code selects a condition exactly when Table 5 defines it (R85, R164). -/
theorem condOfCode_eq_none_iff : ∀ cc : BitVec 8, condOfCode cc = none ↔ 8 < cc.toNat := by decide

end Sys2Proof.Machine
end

