-- ==== Sys2Proof/Machine/Assembly.lean ====
section
/-! DEFINITION. The assembly spelling of each instruction (spec/30_encoding.md R86 to R88).  The machine
does not read it: the spec gives a way to print instructions, and no grammar to read them back. -/

namespace Sys2Proof.Machine

/-- The letter of a register (R20). -/
def regName : Reg → String
  | .a => "A"
  | .b => "B"
  | .c => "C"
  | .d => "D"
  | .e => "E"
  | .f => "F"
  | .g => "G"
  | .h => "H"

/-- The decimal digits of a number below 1000. -/
def decimal (n : Nat) : String :=
  let digit (d : Nat) : String := String.singleton (Char.ofNat (48 + d % 10))
  if n < 10 then digit n
  else if n < 100 then digit (n / 10) ++ digit n
  else digit (n / 100) ++ digit (n / 10) ++ digit n

/-- A displacement with its explicit sign, -16 to +15 (R88). -/
def displacement (i : BitVec 5) : String :=
  if i.toNat < 16 then "+" ++ decimal i.toNat else "-" ++ decimal (32 - i.toNat)

/-- `NAME Rd, +n(Ra)` (R86: `LW Rd, +4(Ra)`). -/
def memoryForm (name : String) (rd ra : Reg) (i : BitVec 5) : String :=
  name ++ " " ++ regName rd ++ ", " ++ displacement i ++ "(" ++ regName ra ++ ")"

/-- `NAME %Ra, %Rd` (R86: `MOVR %Ra, %Rd`). -/
def registerForm (name : String) (rd ra : Reg) : String :=
  name ++ " %" ++ regName ra ++ ", %" ++ regName rd

/-- `NAME $n, %Rd` (R86: `ADDI $255, %Rd`). -/
def immediateForm (name : String) (rd : Reg) (i : BitVec 8) : String :=
  name ++ " $" ++ decimal i.toNat ++ ", %" ++ regName rd

/-- The spelling of R88's table. -/
def assembly : Instr → String
  | .nop => "NOP"
  | .lw rd ra i => memoryForm "LW" rd ra i
  | .sw rd ra i => memoryForm "SW" rd ra i
  | .mov rd ra => registerForm "MOVR" rd ra
  | .movi rd i => immediateForm "MOVI" rd i
  | .add rd ra => registerForm "ADD" rd ra
  | .addi rd i => immediateForm "ADDI" rd i
  | .sub rd ra => registerForm "SUB" rd ra
  | .subi rd i => immediateForm "SUBI" rd i
  | .jmp rd cc => "JMP " ++ regName rd ++ ", " ++ decimal cc.toNat
  | .cmp rd ra rb => "CMP " ++ regName rd ++ ", " ++ regName ra ++ ", " ++ regName rb
  | .halt => "HALT"
  | .lwl rd ra i => memoryForm "LW.L" rd ra i
  | .swl rd ra i => memoryForm "SW.L" rd ra i
  | .je rd => "JE " ++ regName rd
  | .jne rd => "JNE " ++ regName rd
  | .jg rd => "JG " ++ regName rd
  | .jge rd => "JGE " ++ regName rd
  | .jl rd => "JL " ++ regName rd
  | .jle rd => "JLE " ++ regName rd
  | .js rd => "JS " ++ regName rd
  | .jns rd => "JNS " ++ regName rd

end Sys2Proof.Machine
end

