-- ==== Sys2Proof/Tests/Slice0.lean ====
section
/-! SUPPORT. The model's own tests (expected results from spec/95_test_vectors.md unless a comment says
otherwise) and, for each statement with hypotheses, a witness that meets them. -/

namespace Sys2Proof.Tests

open Sys2Proof.Machine

/-! ### WellFormed and Decode -/

theorem test_jmp_with_an_alias_code_is_ill_formed :
    (Instr.jmp .d 1).wellFormed = false ∧ (Instr.jmp .d 8).wellFormed = false := by decide

theorem test_jmp_without_an_alias_code_is_well_formed :
    (Instr.jmp .d 0).wellFormed = true ∧ (Instr.jmp .d 9).wellFormed = true ∧
      (Instr.jmp .d 255).wellFormed = true := by decide

/-- The words are R70's rows and R72 to R75's layouts written out, ignored bits set where there are any. -/
theorem test_decode_nop_halt :
    decode 0b00000_11111111111#16 = .ok .nop ∧ decode 0b10000_00000000000#16 = .ok .halt := by decide

theorem test_decode_loads_and_stores :
    decode 0b00001_010_001_10000#16 = .ok (.lw .c .b 16) ∧
    decode 0b00010_001_000_11111#16 = .ok (.sw .b .a 31) ∧
    decode 0b10001_010_110_01111#16 = .ok (.lwl .c .g 15) ∧
    decode 0b10010_000_001_00000#16 = .ok (.swl .a .b 0) := by decide

theorem test_decode_moves :
    decode 0b00011_110_111_11111#16 = .ok (.mov .g .h) ∧
    decode 0b00100_101_00000001#16 = .ok (.movi .f 1) := by decide

theorem test_decode_arithmetic :
    decode 0b01000_000_001_11111#16 = .ok (.add .a .b) ∧
    decode 0b01001_010_11111111#16 = .ok (.addi .c 255) ∧
    decode 0b01010_000_001_00000#16 = .ok (.sub .a .b) ∧
    decode 0b01011_011_10000000#16 = .ok (.subi .d 128) := by decide

theorem test_decode_compare_and_jumps :
    decode 0b01101_100_010_011_11#16 = .ok (.cmp .e .c .d) ∧
    decode 0b01100_011_00000000#16 = .ok (.jmp .d 0) ∧
    decode 0b01100_111_11111111#16 = .ok (.jmp .h 255) ∧
    decode 0b01100_011_00000001#16 = .ok (.je .d) ∧ decode 0b01100_011_00000010#16 = .ok (.jne .d) ∧
    decode 0b01100_011_00000011#16 = .ok (.jg .d) ∧ decode 0b01100_011_00000100#16 = .ok (.jge .d) ∧
    decode 0b01100_011_00000101#16 = .ok (.jl .d) ∧ decode 0b01100_011_00000110#16 = .ok (.jle .d) ∧
    decode 0b01100_011_00000111#16 = .ok (.js .d) ∧ decode 0b01100_011_00001000#16 = .ok (.jns .d) := by
  decide

/-- Section 2.7 of the vectors. -/
theorem test_decode_refuses_unassigned_opcodes :
    decode 0x2800#16 = .error (.unassignedOpcode 0b00101) ∧
    decode 0x7800#16 = .error (.unassignedOpcode 0b01111) ∧
    decode 0x9800#16 = .error (.unassignedOpcode 0b10011) ∧
    decode 0xFFFF#16 = .error (.unassignedOpcode 0b11111) := by decide

/-- E3: the document's assembly examples. -/
theorem test_encode_the_documents_examples :
    encode (.lw .a .b 4) = 0x0824#16 ∧ encode (.sw .a .b 4) = 0x1024#16 ∧
      encode (.addi .a 255) = 0x48FF#16 ∧ encode (.subi .a 255) = 0x58FF#16 := by decide

theorem test_table_rows_do_not_overlap :
    (instructionRows.map OpcodeRow.pattern).Nodup ∧ (aliasRows.map OpcodeRow.pattern).Nodup := by decide

theorem test_table_word : decodeTableWord 16 0x0824 = some (.lw .a .b 4) ∧
    decodeTableWord 16 0x2800 = none := by decide

theorem test_assembly : assembly (.lw .a .b 4) = "LW A, +4(B)" ∧
    assembly (.lw .c .b 16) = "LW C, -16(B)" ∧ assembly (.mov .a .b) = "MOVR %B, %A" ∧
    assembly (.addi .a 255) = "ADDI $255, %A" ∧ assembly (.jmp .d 9) = "JMP D, 9" := by decide

/-! ### One step per vector -/

/-- Registers `x`, `pc` and listed cells, in a unified memory under the reference parameters. -/
def machine (x : Regs) (pc : Word) (ram : Memory) : State where
  regs := x
  pc := pc
  ram := ram
  code := .shared 0
  halted := false
  fault := none
  params := Config.reference

def zeros : Regs := ⟨0, 0, 0, 0, 0, 0, 0, 0⟩

def nextOf : Result → Option State
  | .next t => some t
  | .fault _ | .refused _ => none

def faultOf : Result → Option Fault
  | .fault f => some f
  | .next _ | .refused _ => none

/-- What field `p` holds after the step that fetches `w`. -/
def after {α : Type} (w : Word) (s : State) (p : State → α) : Option α :=
  (nextOf (step (placeNext w s))).map p

theorem test_nop_wraps : after 0x07FF#16 (machine zeros 0xFFFF []) (·.pc) = some 0x0000#16 := by decide

theorem test_halt : after 0x87FF#16 (machine zeros 0x0100 []) (fun t => (t.halted, t.pc)) =
    some (true, 0x0100#16) := by decide

theorem test_lw_wraps_below_zero :
    after 0x0A30#16 (machine { zeros with b := 0x0005 } 0x0100 [(0xFFF5, 0x1111)])
      (fun t => (t.regs.c, t.pc)) = some (0x1111#16, 0x0101#16) := by decide

theorem test_lw_into_its_base :
    after 0x0800#16 (machine { zeros with a := 0x0040 } 0x0100 [(0x0040, 0x0041)]) (·.regs.a) =
      some 0x0041#16 := by decide

theorem test_lw_outside_ram :
    faultOf (step (placeNext 0x0824#16
      { machine { zeros with b := 0x0100 } 0x0000 [] with
        params := { Config.reference with ramWords := 0x0100 } })) =
      some (.dataAddress 0x0104 0x0000) := by decide

theorem test_lwl_zero_extends :
    after 0x8820#16 (machine { zeros with b := 0x0020 } 0x0100 [(0x0020, 0xFF80)]) (·.regs.a) =
      some 0x0080#16 := by decide

theorem test_sw_wraps :
    after 0x111F#16 (machine { zeros with b := 0xCAFE } 0x0100 [])
      (fun t => (cell 0xFFFF t, t.regs, t.pc)) =
      some (0xCAFE#16, { zeros with b := 0xCAFE }, 0x0101#16) := by decide

theorem test_sw_wraps_into_ram :
    after 0x1024#16 { machine { zeros with a := 0x0007, b := 0xFFFC } 0x0100 [] with
      params := { Config.reference with ramWords := 0x8000 } } (cell 0x0000) = some 0x0007#16 := by
  decide

theorem test_swl_clears_the_upper_byte :
    after 0x947F#16 (machine { zeros with e := 0xABCD, d := 0x0200 } 0x0100 [(0x01FF, 0xFFFF)])
      (cell 0x01FF) = some 0x00CD#16 := by decide

theorem test_mov_ignores_low_bits :
    after 0x183F#16 (machine { zeros with b := 0x1234 } 0x0100 []) (fun t => (t.regs.a, t.regs.b)) =
      some (0x1234#16, 0x1234#16) := by decide

theorem test_movi_zero_extends :
    after 0x20FF#16 (machine zeros 0x0100 []) (·.regs.a) = some 0x00FF#16 := by decide

theorem test_add_overflows_silently :
    after 0x4020#16 (machine { zeros with a := 0x7FFF, b := 0x0001, f := 0x0005 } 0x0100 [])
      (fun t => (t.regs.a, t.regs.f)) = some (0x8000#16, 0x0005#16) := by decide

theorem test_add_doubles :
    after 0x4000#16 (machine { zeros with a := 0x8000 } 0x0100 []) (·.regs.a) = some 0x0000#16 := by
  decide

theorem test_addi_adds_255 :
    after 0x4AFF#16 (machine { zeros with c := 0x0001 } 0x0100 []) (·.regs.c) = some 0x0100#16 := by
  decide

theorem test_sub_order :
    after 0x5020#16 (machine { zeros with a := 0x0003, b := 0x0005 } 0x0100 []) (·.regs.a) =
      some 0xFFFE#16 := by decide

theorem test_subi_zero_extends :
    after 0x5B80#16 (machine { zeros with d := 0x0080 } 0x0100 []) (·.regs.d) = some 0x0000#16 := by
  decide

theorem test_cmp_overflow :
    after 0x6D04#16 (machine { zeros with a := 0x8000, b := 0x0001 } 0x0100 []) (·.regs.f) =
      some 0x0004#16 := by decide

theorem test_cmp_into_another_register :
    after 0x6804#16 (machine { zeros with a := 0x0003, b := 0x0005, f := 0x1234 } 0x0100 [])
      (fun t => (t.regs.a, t.regs.f)) = some (0x0002#16, 0x1234#16) := by decide

/-- Section 2.5's last column for the word 0x6D04 with A = 0x7FFF, B = 0xFFFF: F = 0x0006, codes 0 to 8. -/
theorem test_conditions_of_one_comparison :
    [Cond.always, .equal, .notEqual, .greater, .greaterEqual, .less, .lessEqual, .signed,
      .notSigned].map (fun c => taken c (machine { zeros with f := 0x0006 } 0 [])) =
      [true, false, true, true, true, false, false, true, false] := by decide

theorem test_jmp_to_f :
    after 0x6500#16 (machine { zeros with f := 0x0020 } 0x0007 []) (·.pc) = some 0x0020#16 := by decide

theorem test_jmp_reserved :
    faultOf (step (placeNext 0x6309#16 (machine { zeros with d := 0x0040 } 0x0007 []))) =
      some (.reservedCondition 0x6309 0x0007) := by decide

theorem test_je : after 0x6301#16 (machine { zeros with d := 0x0040, f := 0x0001 } 0x0007 []) (·.pc) =
    some 0x0040#16 := by decide

theorem test_je_not_taken : after 0x6301#16 (machine { zeros with d := 0x0040 } 0x0007 []) (·.pc) =
    some 0x0008#16 := by decide

theorem test_jne : after 0x6302#16 (machine { zeros with d := 0x0004, f := 0x0002 } 0x0007 []) (·.pc) =
    some 0x0004#16 := by decide

theorem test_jg : after 0x6303#16 (machine { zeros with d := 0x0040, f := 0x0006 } 0x0007 []) (·.pc) =
    some 0x0040#16 := by decide

theorem test_jg_not_taken :
    after 0x6303#16 (machine { zeros with d := 0x0040, f := 0x0001 } 0x0007 []) (·.pc) =
      some 0x0008#16 := by decide

theorem test_jge : after 0x6304#16 (machine { zeros with d := 0x0040, f := 0x0001 } 0x0007 []) (·.pc) =
    some 0x0040#16 := by decide

theorem test_jl : after 0x6305#16 (machine { zeros with d := 0x0040, f := 0x0004 } 0x0007 []) (·.pc) =
    some 0x0040#16 := by decide

theorem test_jle_not_taken : after 0x6306#16 (machine { zeros with d := 0x0040 } 0x0007 []) (·.pc) =
    some 0x0008#16 := by decide

theorem test_js_not_taken_wraps : after 0x6307#16 (machine zeros 0xFFFF []) (·.pc) =
    some 0x0000#16 := by decide

theorem test_jns : after 0x6308#16 (machine { zeros with d := 0xFFFF } 0x0007 []) (·.pc) =
    some 0xFFFF#16 := by decide

theorem test_illegal_instruction :
    faultOf (step (placeNext 0x2800#16 (machine zeros 0x0007 []))) =
      some (.illegalInstruction 0x2800 0x0007) := by decide

/-- R55: reset has no image, so its first fetch faults until a launch supplies one. -/
theorem test_reset_without_a_program : faultOf (step State.reset) = some (.fetchAddress 0x0000) := by
  decide

/-- Every instruction of the table runs as the first one after reset, whatever the unspecified registers
and cells hold. -/
theorem test_first_after_reset :
    [0x0000, 0x0824, 0x1024, 0x1820, 0x20FF, 0x4020, 0x48FF, 0x5020, 0x58FF, 0x6300, 0x6D04].all
      (fun w => (nextOf (step (State.reset.withFetchWord 16 w))).isSome) = true ∧
    [0x8000, 0x8ACF, 0x947F, 0x6301, 0x6302, 0x6303, 0x6304, 0x6305, 0x6306, 0x6307, 0x6308].all
      (fun w => (nextOf (step (State.reset.withFetchWord 16 w))).isSome) = true := by decide

/-- R57, R184: the image of a machine with `UNIFIED_MEMORY` not fixed is closed to data, and the address
check comes first. -/
theorem test_code_region_access :
    faultOf (exec (.lw .a .b 0) { machine zeros 0 [] with code := .unfixed [0, 0] }) =
      some (.codeRegionAccess 0 0) ∧
    faultOf (exec (.sw .a .b 0) { machine { zeros with b := 1 } 0 [] with
      code := .unfixed [0, 0], params := { Config.reference with ramWords := 1 } }) =
      some (.dataAddress 1 0) := by decide

/-! ### Witnesses: for each statement with hypotheses, inputs that meet all of them together -/

/-- A machine at 0x0100 with a unified memory whose image is the one word at that address. -/
def at0100 (w : Word) : State := placeNext w (machine { zeros with a := 3, b := 5, d := 4 } 0x0100 [])

theorem witness_LaunchMeetsInvariant :
    Config.reference.wf ∧ Config.resetPc.toNat + [0x8000#16].length ≤ 65536 ∧
    (some true = some true → Config.resetPc.toNat + [0x8000#16].length ≤ Config.reference.ramWords) ∧
    ∀ c ∈ [(0x0000#16, 1#16), (0xFFFF#16, 2#16)], c.1.toNat < Config.reference.ramWords :=
  ⟨by decide, by decide, fun _ => by decide, by simp [Config.reference]⟩

/-- The first and the last address of the image, and the first outside it. -/
theorem witness_LaunchedImageIsFetched :
    Config.resetPc.toNat + [0x2000#16, 0x8000#16].length ≤ 65536 ∧
    [0x2000#16, 0x8000#16][0]? = some 0x2000#16 ∧ [0x2000#16, 0x8000#16][1]? = some 0x8000#16 ∧
    ¬ inside [0x2000#16, 0x8000#16].length 0x0002#16 := by decide

theorem witness_LaunchedDataIsRead :
    Config.resetPc.toNat + [0x8000#16].length ≤ 65536 ∧ ([(0x0001#16, 7#16)].map Prod.fst).Nodup ∧
    (0x0001#16, 7#16) ∈ [(0x0001#16, 7#16)] ∧
    ¬ (some true = some true ∧ inside [0x8000#16].length 0x0001#16) := by decide

theorem witness_DecodeOfEncodeIsTheInstruction :
    (Instr.lw .h .a 31).wellFormed = true ∧ (Instr.jmp .a 255).wellFormed = true := by decide

theorem witness_DecodedWordDiffersOnlyInIgnoredBits : decode 0x07FF#16 = .ok .nop := by decide

theorem witness_IgnoredBitsHaveNoEffect :
    decode 0x6D07#16 = .ok (.cmp .f .a .b) ∧
    0x6D04#16 &&& (Instr.cmp .f .a .b).significantBits =
      0x6D07#16 &&& (Instr.cmp .f .a .b).significantBits := by decide

theorem witness_DecoderAgreesWithOpcodeTable :
    OpcodeRow.mk "JNS" 0xF8FF 0x6008 ∈ instructionRows ++ aliasRows := by decide

/-- The first and the last unassigned opcode. -/
theorem witness_UnassignedOpcodesAreIllegal :
    running (at0100 0x2800) ∧ fetch (at0100 0x2800).pc (at0100 0x2800) = .ok 0x2800#16 ∧
    (0x2800#16).toNat / 2048 ∈ unassignedOpcodes ∧
    fetch (at0100 0xFFFF).pc (at0100 0xFFFF) = .ok 0xFFFF#16 ∧
    (0xFFFF#16).toNat / 2048 ∈ unassignedOpcodes := by decide

theorem witness_StepRunsTheDecodedInstruction :
    running (at0100 0x4020) ∧ fetch (at0100 0x4020).pc (at0100 0x4020) = .ok 0x4020#16 ∧
    decode 0x4020#16 = .ok (.add .a .b) := by decide

/-- Each clause: the last address of a shared image, the last word of a separate and of an unfixed one,
and the first address outside. -/
theorem witness_FetchReadsTheImageOnly :
    ((at0100 0).code = .shared 0x0101 ∧ inside 0x0101 0x0100#16) ∧
    ((InstrMemory.separate [1, 2] = .separate [1, 2] ∨ InstrMemory.separate [1, 2] = .unfixed [1, 2]) ∧
      Config.resetPc.toNat + [1#16, 2#16].length ≤ 65536 ∧ [1#16, 2#16][1]? = some 2#16) ∧
    (running State.reset ∧ ¬ inside (imageLength State.reset.code) State.reset.pc) := by decide

theorem witness_StepKeepsInvariant :
    invariant (at0100 0x1024) ∧ (nextOf (step (at0100 0x1024))).isSome = true := by decide

theorem witness_HaltedMachineNeverChanges :
    let s := { machine zeros 0x0008 [] with halted := true }
    s.halted = true ∧ s.fault = none := by decide

theorem witness_FaultsArePreciseAndFinal :
    step (at0100 0x6309) = .fault (.reservedCondition 0x6309 0x0100) := rfl

/-- The condition of the second clause, for a load and for a store. -/
theorem witness_EffectiveAddressIsBasePlusDisplacement :
    ((∃ t, exec (.lw .a .b 4) (machine zeros 0 []) = .next t) ∧ Reg.a ≠ Reg.b) ∧
    (∃ t, exec (.swl .b .b 4) (machine zeros 0 []) = .next t) := ⟨⟨⟨_, rfl⟩, by decide⟩, _, rfl⟩

/-- RAM of 0x0100 words: the last allowed address and the first outside. -/
def smallRam : State :=
  { machine { zeros with b := 0x00FF, c := 0x0100 } 0 [] with
    params := { Config.reference with ramWords := 0x0100 } }

/-- The same, all of it the image of a unified memory, or of a machine that leaves it unfixed. -/
def smallShared : State := { smallRam with code := .shared 0x0100 }

def smallUnfixed : State := { smallRam with code := .unfixed (List.replicate 0x0100 0) }

theorem witness_access_at_the_edge_of_ram :
    accessAllowed (effectiveAddress .b 0 smallRam) smallRam ∧
    smallRam.params.ramWords ≤ (effectiveAddress .b 1 smallRam).toNat ∧
    smallRam.params.ramWords ≤ (effectiveAddress .c 0 smallRam).toNat :=
  ⟨⟨by decide, fun _ h => by cases h⟩, by decide, by decide⟩

/-- A running machine about to load, or to store, one word outside its RAM. -/
def atTheEdge (w : Word) : State := placeNext w smallRam

theorem witness_LoadWordReadsTheCell :
    opcodeIs 0x0821#16 0b00001 ∧
    (atTheEdge 0x0821).params.ramWords ≤ (effectiveAddress .b 1 (atTheEdge 0x0821)).toNat ∧
    running (atTheEdge 0x0821) ∧ fetch (atTheEdge 0x0821).pc (atTheEdge 0x0821) = .ok 0x0821#16 ∧
    decode 0x0821#16 = .ok (.lw .a .b 1) := by decide

theorem witness_LoadByteZeroExtendsTheLowByte : opcodeIs 0x8ACF#16 0b10001 := by decide

theorem witness_StoreWordWritesOneCell :
    opcodeIs 0x1021#16 0b00010 ∧
    (atTheEdge 0x1021).params.ramWords ≤ (effectiveAddress .b 1 (atTheEdge 0x1021)).toNat ∧
    running (atTheEdge 0x1021) ∧ fetch (atTheEdge 0x1021).pc (atTheEdge 0x1021) = .ok 0x1021#16 ∧
    decode 0x1021#16 = .ok (.sw .a .b 1) := by decide

theorem witness_StoreByteClearsTheUpperByte : opcodeIs 0x947F#16 0b10010 := by decide

/-- Each clause at the edge of RAM and at the last address of the image. -/
theorem witness_MemoryInstructionsFaultInOrder :
    (accessAddress (.sw .a .c 0) smallRam = some 0x0100 ∧ smallRam.params.ramWords ≤ (0x0100#16).toNat) ∧
    (accessAddress (.lw .a .b 0) smallUnfixed = some 0x00FF ∧
      smallUnfixed.code = .unfixed (List.replicate 0x0100 0) ∧
      inside (List.replicate 0x0100 0#16).length 0x00FF#16 ∧
      (0x00FF#16).toNat < smallUnfixed.params.ramWords) := by
  refine ⟨by decide, by decide, rfl, ?_, by decide⟩
  rw [List.length_replicate]
  decide

theorem witness_LoadReturnsTheStoredValue :
    accessAllowed (effectiveAddress .b 0 smallRam) smallRam :=
  witness_access_at_the_edge_of_ram.1

/-- The last address of a unified image, and a machine whose memories are separate. -/
theorem witness_StoresReachFetchesOnlyWhenUnified :
    (smallShared.code = .shared 0x0100 ∧
      accessAllowed (effectiveAddress .b 0 smallShared) smallShared ∧
      inside 0x0100 (effectiveAddress .b 0 smallShared)) ∧
    (let s := { smallRam with code := .separate [0] }
     (s.code = .separate [0] ∨ s.code = .unfixed [0]) ∧ ∃ t, exec (.sw .a .b 0) s = .next t) :=
  ⟨⟨rfl, ⟨by decide, fun _ h => by cases h⟩, by decide⟩, .inl rfl, _, rfl⟩

theorem witness_opcode_of_each_register_instruction :
    opcodeIs 0x0000#16 0b00000 ∧ opcodeIs 0x87FF#16 0b10000 ∧ opcodeIs 0x1820#16 0b00011 ∧
    opcodeIs 0x20FF#16 0b00100 ∧ opcodeIs 0x4020#16 0b01000 ∧ opcodeIs 0x48FF#16 0b01001 ∧
    opcodeIs 0x5020#16 0b01010 ∧ opcodeIs 0x58FF#16 0b01011 := by decide

/-- The reference layout and one that uses the highest bits. -/
theorem witness_StatusWordHoldsItsFlags :
    Config.reference.wf ∧ ({ ramWords := 1, zfBit := 15, sfBit := 0, ofBit := 14 } : Config.Params).wf := by
  decide

theorem witness_CompareWritesTheStatusWord :
    opcodeIs 0x6D04#16 0b01101 ∧ (at0100 0).params.wf ∧ 3 = (readReg .a (at0100 0)).toNat ∧
    5 = (readReg .b (at0100 0)).toNat ∧ 65534 = (3 + 65536 - 5) % 65536 := by decide

/-- Every clause on the condition code at its edge values 0, 1, 8, 9 and 255. -/
theorem witness_JumpIsUnconditionalOrReserved :
    opcodeIs 0x6301#16 0b01100 ∧ (0x6301#16).toNat % 256 = 1 ∧ (0x6308#16).toNat % 256 = 8 ∧
    (0x6300#16).toNat % 256 = 0 ∧ 8 < (0x6309#16).toNat % 256 ∧ 8 < (0x63FF#16).toNat % 256 ∧
    8 < (9#8).toNat ∧ 8 < (255#8).toNat := by decide

/-- The codes 2 to 7, between them. -/
theorem witness_JumpIsUnconditionalOrReserved_aliases :
    [0x6302#16, 0x6303, 0x6304, 0x6305, 0x6306, 0x6307].map (fun w => (w.toNat / 2048, w.toNat % 256)) =
      [(0b01100, 2), (0b01100, 3), (0b01100, 4), (0b01100, 5), (0b01100, 6), (0b01100, 7)] := by decide

theorem witness_AliasesAreJumpsWithTheirCode :
    (Instr.jns .h, 8#8) ∈ [(Instr.je .h, 1#8), (.jne .h, 2), (.jg .h, 3), (.jge .h, 4), (.jl .h, 5),
      (.jle .h, 6), (.js .h, 7), (.jns .h, 8)] := by decide

theorem witness_CompareThenJumpDecidesSignedOrder :
    let s := machine { zeros with a := 0x8000, b := 0x0001 } 0 []
    s.params.wf ∧ -32768 = (readReg .a s).toInt ∧ 1 = (readReg .b s).toInt := by decide

theorem witness_OnlyTheDestinationRegisterChanges :
    (∃ t, exec (.add .a .b) (at0100 0) = .next t) ∧ destination (.add .a .b) ≠ some .f :=
  ⟨⟨_, rfl⟩, by decide⟩

theorem witness_UnnamedRegistersAreIndependent :
    Reg.f ∉ touched (.jmp .a 0) ∧ Reg.g ∉ touched (.je .a) ∧ Reg.h ∉ touched (.sw .a .b 0) := by decide

theorem witness_OnlyStoresChangeMemory :
    (∃ t, exec (.sw .a .b 0) smallRam = .next t) ∧
    storeAddress (.sw .a .b 0) smallRam ≠ some 0x00FE := ⟨⟨_, rfl⟩, by decide⟩

theorem witness_ProgramCounterAdvancesByOne :
    (∃ t, exec .halt (at0100 0) = .next t) ∧ (∃ t, exec .nop (at0100 0) = .next t) ∧
    (∃ t, exec (.jmp .d 0) (at0100 0) = .next t) ∧ isJump .nop = false ∧ isJump (.jmp .d 0) = true :=
  ⟨⟨_, rfl⟩, ⟨_, rfl⟩, ⟨_, rfl⟩, rfl, rfl⟩

theorem witness_OnlyHaltHaltsAndLaunchIsFixed : ∃ t, exec (.jmp .d 0) (at0100 0) = .next t := ⟨_, rfl⟩

end Sys2Proof.Tests
end

section
/-! NOP (spec/40_nop_halt.md, R100).  What `advancePc` does, in the statements' own terms, and NOP as
one use of it. -/

namespace Sys2Proof.Machine

@[simp] theorem pcPlusOne_advancePc (s : State) : pcPlusOne s (advancePc s) :=
  BitVec.toNat_add s.pc 1

@[simp] theorem sameRegs_advancePc (s : State) : sameRegs s (advancePc s) :=
  fun r => readReg_advancePc r s

@[simp] theorem sameMemory_advancePc (s : State) : sameMemory s (advancePc s) :=
  fun a => cell_advancePc a s

@[simp] theorem sameRest_advancePc (s : State) : sameRest s (advancePc s) :=
  ⟨advancePc_halted s, advancePc_fault s, advancePc_code s, advancePc_params s⟩

@[simp] theorem exec_nop (s : State) : exec .nop s = .next (advancePc s) := rfl

theorem decode_of_opcode_nop (w : Word) (h : opcodeIs w 0b00000) : decode w = .ok .nop := by
  have hop : (opcodeField w).toNat = 0b00000 := (opcodeField_toNat w).trans h
  simp only [decode, hop]

/-- Settles O17: opcode 00000 selects NOP whatever bits 10:0 hold, and NOP is `advancePc`. -/
theorem nopOnlyAdvancesPc : Obligations.NopOnlyAdvancesPc :=
  ⟨decode_of_opcode_nop, fun s => ⟨advancePc s, exec_nop s, pcPlusOne_advancePc s,
    sameRegs_advancePc s, sameMemory_advancePc s, sameRest_advancePc s⟩⟩

end Sys2Proof.Machine
end

section
/-! Loads and stores (spec/41_load_store.md, R110 to R114).  The loads and the stores each share one
meaning (`loadVia`, `storeVia`), so what an allowed and what an outside access answers is said once for
every `narrow`; LW and SW are the uses of it with `id`. -/

namespace Sys2Proof.Machine

/-- R61, D11: the sum of words is the sum of numbers modulo 2^16. -/
theorem addressIs_effectiveAddress (ra : Reg) (d : BitVec 5) (s : State) :
    addressIs (effectiveAddress ra d s) ra d s := by
  have hd : (simm5Value d).toInt = d.toInt := BitVec.toInt_signExtend_of_le (by decide)
  have hsext := (BitVec.toInt_eq_toNat_bmod (simm5Value d)).symm.trans hd
  have hsum : (effectiveAddress ra d s).toNat =
      ((readReg ra s).toNat + (simm5Value d).toNat) % 2 ^ 16 := BitVec.toNat_add _ _
  rw [Int.bmod_def] at hsext
  unfold addressIs
  omega

/-- What every instruction that writes Rd and moves on changes, and its frame. -/
theorem writesOnly_advancePc_writeReg (rd : Reg) (v : Word) (s : State) :
    writesOnly rd v.toNat s (advancePc (writeReg rd v s)) := by
  refine ⟨?_, fun r hr => ?_, fun a => ?_, pcPlusOne_advancePc (writeReg rd v s),
    sameRest_advancePc (writeReg rd v s)⟩
  · rw [readReg_advancePc, readReg_writeReg_same]
  · rw [readReg_advancePc, readReg_writeReg_other r rd v s hr]
  · rw [cell_advancePc, cell_writeReg]

/-- What every store that completes changes, and its frame. -/
theorem storesOnly_advancePc_setCell (addr v : Word) (s : State) :
    storesOnly addr v.toNat s (advancePc (setCell addr v s)) := by
  refine ⟨?_, fun a ha => ?_, fun r => ?_, pcPlusOne_advancePc (setCell addr v s),
    sameRest_advancePc (setCell addr v s)⟩
  · rw [cell_advancePc, cell_setCell_same]
  · rw [cell_advancePc, cell_setCell_other addr a v s ha]
  · rw [readReg_advancePc, readReg_setCell]

/-- An allowed load writes the narrowed cell to Rd and nothing else. -/
theorem loadVia_of_accessAllowed (narrow : Word → Word) (rd ra : Reg) (d : BitVec 5) (s : State)
    (h : accessAllowed (effectiveAddress ra d s) s) :
    ∃ t, loadVia narrow rd ra d s = .next t ∧
      writesOnly rd (narrow (cell (effectiveAddress ra d s) s)).toNat s t :=
  ⟨_, (loadVia_next_iff narrow rd ra d s _).2 ⟨h, rfl⟩, writesOnly_advancePc_writeReg rd _ s⟩

/-- An allowed store writes the narrowed Rd to its cell and nothing else. -/
theorem storeVia_of_accessAllowed (narrow : Word → Word) (rd ra : Reg) (d : BitVec 5) (s : State)
    (h : accessAllowed (effectiveAddress ra d s) s) :
    ∃ t, storeVia narrow rd ra d s = .next t ∧
      storesOnly (effectiveAddress ra d s) (narrow (readReg rd s)).toNat s t :=
  ⟨_, (storeVia_next_iff narrow rd ra d s _).2 ⟨h, rfl⟩, storesOnly_advancePc_setCell _ _ s⟩

/-- R52: a load outside RAM. -/
theorem loadVia_outside (narrow : Word → Word) (rd ra : Reg) (d : BitVec 5) (s : State)
    (h : s.params.ramWords ≤ (effectiveAddress ra d s).toNat) :
    loadVia narrow rd ra d s = .fault (.dataAddress (effectiveAddress ra d s) s.pc) :=
  loadVia_fault narrow rd ra d s _ (dataFault_outside _ s h)

/-- R53: a store outside RAM. -/
theorem storeVia_outside (narrow : Word → Word) (rd ra : Reg) (d : BitVec 5) (s : State)
    (h : s.params.ramWords ≤ (effectiveAddress ra d s).toNat) :
    storeVia narrow rd ra d s = .fault (.dataAddress (effectiveAddress ra d s) s.pc) :=
  storeVia_fault narrow rd ra d s _ (dataFault_outside _ s h)

/-- R13: a running machine's step is the decoded instruction's meaning. -/
theorem step_of_decode (s : State) (w : Word) (i : Instr) (hrun : running s)
    (hfetch : fetch s.pc s = .ok w) (hdecode : decode w = .ok i) : step s = exec i s := by
  obtain ⟨hhalted, hfault⟩ := hrun
  simp [step, fetchInstr, hhalted, hfault, hfetch, hdecode]

/-- R185: when the instruction at `pc` faults, the step records the fault and changes nothing else. -/
theorem advance_of_exec_fault (s : State) (w : Word) (i : Instr) (f : Fault) (hrun : running s)
    (hfetch : fetch s.pc s = .ok w) (hdecode : decode w = .ok i) (hexec : exec i s = .fault f) :
    advance s = recordFault f s := by
  simp only [advance, step_of_decode s w i hrun hfetch hdecode, hexec]

@[simp] theorem sameMemory_recordFault (f : Fault) (s : State) : sameMemory s (recordFault f s) :=
  fun a => cell_of_ram a s _ (recordFault_ram f s)

@[simp] theorem exec_lw (rd ra : Reg) (d : BitVec 5) (s : State) :
    exec (.lw rd ra d) s = loadVia id rd ra d s := rfl

@[simp] theorem exec_sw (rd ra : Reg) (d : BitVec 5) (s : State) :
    exec (.sw rd ra d) s = storeVia id rd ra d s := rfl

theorem decode_of_opcode_lw (w : Word) (h : opcodeIs w 0b00001) :
    decode w = .ok (.lw (rdField w) (raField w) (simm5Field w)) := by
  have hop : (opcodeField w).toNat = 0b00001 := (opcodeField_toNat w).trans h
  simp only [decode, hop]

theorem decode_of_opcode_sw (w : Word) (h : opcodeIs w 0b00010) :
    decode w = .ok (.sw (rdField w) (raField w) (simm5Field w)) := by
  have hop : (opcodeField w).toNat = 0b00010 := (opcodeField_toNat w).trans h
  simp only [decode, hop]

/-- Settles O20: LW is `loadVia id`; a fault leaves Rd and `pc` because the step only records it. -/
theorem loadWordReadsTheCell : Obligations.LoadWordReadsTheCell := by
  refine ⟨fun w hop => ⟨_, _, _, decode_of_opcode_lw w hop, rdField_toNat w, raField_toNat w,
    simm5Field_toNat w⟩, fun s rd ra d => ⟨addressIs_effectiveAddress ra d s,
    loadVia_of_accessAllowed id rd ra d s, fun hout => ?_⟩⟩
  have hexec := (exec_lw rd ra d s).trans (loadVia_outside id rd ra d s hout)
  refine ⟨hexec, fun w hrun hfetch hdecode => ?_⟩
  rw [advance_of_exec_fault s w _ _ hrun hfetch hdecode hexec]
  exact ⟨readReg_recordFault rd _ s, recordFault_pc _ s⟩

/-- Settles O22: SW is `storeVia id`; a fault leaves memory and `pc` because the step only records
it. -/
theorem storeWordWritesOneCell : Obligations.StoreWordWritesOneCell := by
  refine ⟨fun w hop => ⟨_, _, _, decode_of_opcode_sw w hop, rdField_toNat w, raField_toNat w,
    simm5Field_toNat w⟩, fun s rd ra d => ⟨addressIs_effectiveAddress ra d s,
    storeVia_of_accessAllowed id rd ra d s, fun hout => ?_⟩⟩
  have hexec := (exec_sw rd ra d s).trans (storeVia_outside id rd ra d s hout)
  refine ⟨hexec, fun w hrun hfetch hdecode => ?_⟩
  rw [advance_of_exec_fault s w _ _ hrun hfetch hdecode hexec]
  exact ⟨sameMemory_recordFault _ s, recordFault_pc _ s⟩

end Sys2Proof.Machine
end

section
/-! MOV (spec/42_move.md, R131).  MOV is one use of `setAndAdvance`, whose effect and frame are said
once for every value it may write. -/

namespace Sys2Proof.Machine

/-- The effect and frame of the register instructions, which end by writing Rd and moving on. -/
theorem writesOnly_setAndAdvance (rd : Reg) (v : Word) (s : State) :
    ∃ t, setAndAdvance rd v s = .next t ∧ writesOnly rd v.toNat s t :=
  ⟨advancePc (writeReg rd v s), setAndAdvance_eq rd v s, writesOnly_advancePc_writeReg rd v s⟩

@[simp] theorem exec_mov (rd ra : Reg) (s : State) :
    exec (.mov rd ra) s = setAndAdvance rd (readReg ra s) s := rfl

theorem decode_of_opcode_mov (w : Word) (h : opcodeIs w 0b00011) :
    decode w = .ok (.mov (rdField w) (raField w)) := by
  have hop : (opcodeField w).toNat = 0b00011 := (opcodeField_toNat w).trans h
  simp only [decode, hop]

/-- Settles O27: opcode 00011 selects MOV whatever bits 4:0 hold, and MOV sets Rd to what Ra read
before the write, so Rd = Ra is no special case. -/
theorem moveCopiesTheRegister : Obligations.MoveCopiesTheRegister := by
  refine ⟨fun w hop => ⟨_, _, decode_of_opcode_mov w hop, rdField_toNat w, raField_toNat w⟩,
    fun s rd ra => ?_⟩
  rw [exec_mov]
  exact writesOnly_setAndAdvance rd (readReg ra s) s

end Sys2Proof.Machine
end

section
/-! ADD and SUB (spec/43_arithmetic.md, R140, R141, R143).  Both are uses of `setAndAdvance`; what they
add to MOV is that the arithmetic of words is that of numbers modulo 2^16 (D11). -/

namespace Sys2Proof.Machine

/-- The difference of words, in the statements' order: 2^16 is added first, so that the difference of
numbers is not cut off at 0. -/
theorem toNat_sub_word (x y : Word) : (x - y).toNat = (x.toNat + 65536 - y.toNat) % 65536 := by
  have hy : y.toNat < 65536 := y.isLt
  rw [BitVec.toNat_sub, Nat.add_comm x.toNat, Nat.sub_add_comm hy.le]

@[simp] theorem exec_add (rd ra : Reg) (s : State) :
    exec (.add rd ra) s = setAndAdvance rd (readReg rd s + readReg ra s) s := rfl

@[simp] theorem exec_sub (rd ra : Reg) (s : State) :
    exec (.sub rd ra) s = setAndAdvance rd (readReg rd s - readReg ra s) s := rfl

theorem decode_of_opcode_add (w : Word) (h : opcodeIs w 0b01000) :
    decode w = .ok (.add (rdField w) (raField w)) := by
  have hop : (opcodeField w).toNat = 0b01000 := (opcodeField_toNat w).trans h
  simp only [decode, hop]

theorem decode_of_opcode_sub (w : Word) (h : opcodeIs w 0b01010) :
    decode w = .ok (.sub (rdField w) (raField w)) := by
  have hop : (opcodeField w).toNat = 0b01010 := (opcodeField_toNat w).trans h
  simp only [decode, hop]

/-- Settles O29: opcode 01000 selects ADD whatever bits 4:0 hold, and the sum is of what Rd and Ra read
before the write, so Rd = Ra doubles the register. -/
theorem addIsTheSumModuloTwoToSixteen : Obligations.AddIsTheSumModuloTwoToSixteen := by
  refine ⟨fun w hop => ⟨_, _, decode_of_opcode_add w hop, rdField_toNat w, raField_toNat w⟩,
    fun s rd ra => ?_⟩
  have hsum : (readReg rd s + readReg ra s).toNat =
      ((readReg rd s).toNat + (readReg ra s).toNat) % 65536 := BitVec.toNat_add _ _
  rw [exec_add, ← hsum]
  exact writesOnly_setAndAdvance rd (readReg rd s + readReg ra s) s

/-- Settles O31: opcode 01010 selects SUB whatever bits 4:0 hold, and Rd, not Ra, is the minuend. -/
theorem subtractIsTheDifferenceModuloTwoToSixteen :
    Obligations.SubtractIsTheDifferenceModuloTwoToSixteen := by
  refine ⟨fun w hop => ⟨_, _, decode_of_opcode_sub w hop, rdField_toNat w, raField_toNat w⟩,
    fun s rd ra => ?_⟩
  rw [exec_sub, ← toNat_sub_word]
  exact writesOnly_setAndAdvance rd (readReg rd s - readReg ra s) s

end Sys2Proof.Machine
end

section
/-! CMP (spec/44_compare_jump.md, R161, R162).  CMP is one use of `setAndAdvance`; what it adds is what
its value holds at each bit (R26), each flag by the operands and their difference read as numbers. -/

namespace Sys2Proof.Machine

/-- The sign bit of a word, in the statements' terms. -/
theorem getLsbD_signBit (v : Word) : v.getLsbD 15 = decide (32768 ≤ v.toNat) :=
  BitVec.getLsbD_last v

theorem compareZero_eq_decide (a b : Word) : compareZero a b = decide ((a - b).toNat = 0) := by
  rw [compareZero, beq_eq_decide, decide_eq_decide, ← BitVec.toNat_inj, BitVec.toNat_zero]

theorem compareSign_eq_decide (a b : Word) : compareSign a b = decide (32768 ≤ (a - b).toNat) :=
  getLsbD_signBit (a - b)

theorem compareOverflow_eq_decide (a b : Word) : compareOverflow a b =
    ((decide (32768 ≤ a.toNat) != decide (32768 ≤ b.toNat)) &&
      (decide (32768 ≤ (a - b).toNat) != decide (32768 ≤ a.toNat))) := by
  simp only [compareOverflow, getLsbD_signBit]

/-- R26: each bit of a status word.  Only a layout of three distinct positions lets each flag be read
without the others. -/
theorem getLsbD_mkFlags (p : Config.Params) (z s o : Bool) (hp : p.wf) (k : Fin 16) :
    (mkFlags p z s o).getLsbD k.val =
      if k = p.zfBit then z else if k = p.sfBit then s else if k = p.ofBit then o else false := by
  obtain ⟨-, hzs, hzo, hso⟩ := hp
  simp only [mkFlags, BitVec.getLsbD_or, getLsbD_bitAt]
  split_ifs with hz hs ho
  · simp [hz, hzs, hzo]
  · simp [hs, hzs.symm, hso]
  · simp [ho, hzo.symm, hso.symm]
  · simp [hz, hs, ho]

@[simp] theorem exec_cmp (rd ra rb : Reg) (s : State) : exec (.cmp rd ra rb) s =
    setAndAdvance rd (compareFlags s.params (readReg ra s) (readReg rb s)) s := rfl

theorem decode_of_opcode_cmp (w : Word) (h : opcodeIs w 0b01101) :
    decode w = .ok (.cmp (rdField w) (raField w) (rbField w)) := by
  have hop : (opcodeField w).toNat = 0b01101 := (opcodeField_toNat w).trans h
  simp only [decode, hop]

/-- Settles O34: opcode 01101 selects CMP whatever bits 1:0 hold, and CMP sets Rd to the status word of
what Ra and Rb read before the write, so the difference itself is stored nowhere. -/
theorem compareWritesTheStatusWord : Obligations.CompareWritesTheStatusWord := by
  refine ⟨fun w hop => ⟨_, _, _, decode_of_opcode_cmp w hop, rdField_toNat w, raField_toNat w,
    rbField_toNat w⟩, ?_⟩
  rintro s rd ra rb _ _ _ hp rfl rfl rfl
  obtain ⟨t, hnext, hwrites⟩ :=
    writesOnly_setAndAdvance rd (compareFlags s.params (readReg ra s) (readReg rb s)) s
  refine ⟨t, _, (exec_cmp rd ra rb s).trans hnext, hwrites, fun k => ?_⟩
  rw [← toNat_sub_word, compareFlags, getLsbD_mkFlags _ _ _ _ hp, compareZero_eq_decide,
    compareSign_eq_decide, compareOverflow_eq_decide]

end Sys2Proof.Machine
end

section
/-! The instruction word (spec/30_encoding.md).  Each opcode's decoding is said once; a word is then put
together again from its fields, which gives both directions of the round trip (R83). -/

namespace Sys2Proof.Machine

theorem decode_of_opcode_movi (w : Word) (h : opcodeIs w 0b00100) :
    decode w = .ok (.movi (rdField w) (imm8Field w)) := by
  have hop : (opcodeField w).toNat = 0b00100 := (opcodeField_toNat w).trans h
  simp only [decode, hop]

theorem decode_of_opcode_addi (w : Word) (h : opcodeIs w 0b01001) :
    decode w = .ok (.addi (rdField w) (imm8Field w)) := by
  have hop : (opcodeField w).toNat = 0b01001 := (opcodeField_toNat w).trans h
  simp only [decode, hop]

theorem decode_of_opcode_subi (w : Word) (h : opcodeIs w 0b01011) :
    decode w = .ok (.subi (rdField w) (imm8Field w)) := by
  have hop : (opcodeField w).toNat = 0b01011 := (opcodeField_toNat w).trans h
  simp only [decode, hop]

theorem decode_of_opcode_jmp (w : Word) (h : opcodeIs w 0b01100) :
    decode w = .ok (decodeJump (rdField w) (imm8Field w)) := by
  have hop : (opcodeField w).toNat = 0b01100 := (opcodeField_toNat w).trans h
  simp only [decode, hop]

theorem decode_of_opcode_halt (w : Word) (h : opcodeIs w 0b10000) : decode w = .ok .halt := by
  have hop : (opcodeField w).toNat = 0b10000 := (opcodeField_toNat w).trans h
  simp only [decode, hop]

theorem decode_of_opcode_lwl (w : Word) (h : opcodeIs w 0b10001) :
    decode w = .ok (.lwl (rdField w) (raField w) (simm5Field w)) := by
  have hop : (opcodeField w).toNat = 0b10001 := (opcodeField_toNat w).trans h
  simp only [decode, hop]

theorem decode_of_opcode_swl (w : Word) (h : opcodeIs w 0b10010) :
    decode w = .ok (.swl (rdField w) (raField w) (simm5Field w)) := by
  have hop : (opcodeField w).toNat = 0b10010 := (opcodeField_toNat w).trans h
  simp only [decode, hop]

/-- Bits 15:11 of the encoding, for every instruction (R70, R80). -/
theorem opcodeField_encode (i : Instr) : opcodeField (encode i) = i.opcode := by
  cases i with
  | nop | halt => exact opcodeField_opcodeOnly _
  | lw | sw | mov | add | sub | lwl | swl => exact opcodeField_type1 _ _ _ _
  | movi | addi | subi | jmp | je | jne | jg | jge | jl | jle | js | jns =>
    exact opcodeField_type2 _ _ _
  | cmp => exact opcodeField_type3 _ _ _ _

theorem opcodeIs_encode (i : Instr) : opcodeIs (encode i) i.opcode.toNat := by
  rw [← opcodeField_encode i]
  exact (opcodeField_toNat _).symm

/-- R85, R87: a code that is no condition's own is JMP's. -/
theorem decodeJump_of_wellFormed (rd : Reg) (cc : BitVec 8)
    (h : (Instr.jmp rd cc).wellFormed = true) : decodeJump rd cc = .jmp rd cc := by
  simp only [Instr.wellFormed, Bool.or_eq_true, decide_eq_true_eq] at h
  unfold decodeJump
  split
  case h_9 => rfl
  all_goals omega

/-- Settles O6: the opcode of the encoding selects the instruction's own form, and each field of the
form is read back. -/
theorem decodeOfEncodeIsTheInstruction : Obligations.DecodeOfEncodeIsTheInstruction := by
  intro i hwf
  have hop := opcodeIs_encode i
  cases i with
  | nop => exact decode_of_opcode_nop _ hop
  | halt => exact decode_of_opcode_halt _ hop
  | lw rd ra d => rw [decode_of_opcode_lw _ hop]; simp [encode]
  | sw rd ra d => rw [decode_of_opcode_sw _ hop]; simp [encode]
  | lwl rd ra d => rw [decode_of_opcode_lwl _ hop]; simp [encode]
  | swl rd ra d => rw [decode_of_opcode_swl _ hop]; simp [encode]
  | mov rd ra => rw [decode_of_opcode_mov _ hop]; simp [encode]
  | add rd ra => rw [decode_of_opcode_add _ hop]; simp [encode]
  | sub rd ra => rw [decode_of_opcode_sub _ hop]; simp [encode]
  | movi rd n => rw [decode_of_opcode_movi _ hop]; simp [encode]
  | addi rd n => rw [decode_of_opcode_addi _ hop]; simp [encode]
  | subi rd n => rw [decode_of_opcode_subi _ hop]; simp [encode]
  | cmp rd ra rb => rw [decode_of_opcode_cmp _ hop]; simp [encode]
  | jmp rd cc => rw [decode_of_opcode_jmp _ hop]; simp [encode, decodeJump_of_wellFormed rd cc hwf]
  | je | jne | jg | jge | jl | jle | js | jns =>
    rw [decode_of_opcode_jmp _ hop]
    simp [encode, decodeJump]

end Sys2Proof.Machine
end

section
/-! Ignored bits (R83).  They are the low bits of the word, so to mask them is to clear the remainder of
a division, and every decoded field can be read from the quotient. -/

namespace Sys2Proof.Machine

/-- How many low bits of an instruction's word are "X" (R74, R75, R83). -/
def ignoredBits : Instr → Nat
  | .nop | .halt => 11
  | .mov _ _ | .add _ _ | .sub _ _ => 5
  | .cmp _ _ _ => 2
  | .lw _ _ _ | .sw _ _ _ | .lwl _ _ _ | .swl _ _ _ | .movi _ _ | .addi _ _ | .subi _ _ | .jmp _ _
  | .je _ | .jne _ | .jg _ | .jge _ | .jl _ | .jle _ | .js _ | .jns _ => 0

theorem significantBits_eq (i : Instr) :
    i.significantBits = BitVec.allOnes 16 <<< ignoredBits i := by
  cases i <;> simp [Instr.significantBits, ignoredBits]

theorem ignoredBits_cases (i : Instr) :
    ignoredBits i = 0 ∨ ignoredBits i = 2 ∨ ignoredBits i = 5 ∨ ignoredBits i = 11 := by
  cases i <;> simp [ignoredBits]

theorem and_significantBits_toNat (w : Word) (i : Instr) :
    (w &&& i.significantBits).toNat = w.toNat / 2 ^ ignoredBits i * 2 ^ ignoredBits i := by
  have hle : w.toNat / 2 ^ ignoredBits i * 2 ^ ignoredBits i < 2 ^ 16 :=
    lt_of_le_of_lt (Nat.div_mul_le_self _ _) w.isLt
  rw [significantBits_eq, ← BitVec.shiftLeft_ushiftRight, BitVec.toNat_shiftLeft,
    BitVec.toNat_ushiftRight, Nat.shiftLeft_eq, Nat.shiftRight_eq_div_pow, Nat.mod_eq_of_lt hle]

theorem encode_decodeJump (rd : Reg) (cc : BitVec 8) :
    encode (decodeJump rd cc) = type2 0b01100 rd cc := by
  unfold decodeJump
  split
  case h_9 => rfl
  all_goals
    rename_i hcc
    exact congrArg (type2 0b01100 rd) (BitVec.eq_of_toNat_eq hcc.symm)

@[simp] theorem ignoredBits_decodeJump (rd : Reg) (cc : BitVec 8) :
    ignoredBits (decodeJump rd cc) = 0 := by
  unfold decodeJump
  split <;> rfl

theorem wellFormed_decodeJump (rd : Reg) (cc : BitVec 8) :
    (decodeJump rd cc).wellFormed = true := by
  unfold decodeJump
  split
  case h_9 =>
    simp only [Instr.wellFormed, Bool.or_eq_true, decide_eq_true_eq]
    simp only [imp_false] at *
    omega
  all_goals rfl

theorem wellFormed_of_decode (w : Word) (i : Instr) (h : decode w = .ok i) :
    i.wellFormed = true := by
  unfold decode at h
  split at h <;> cases h
  case h_10 => exact wellFormed_decodeJump _ _
  all_goals rfl

/-- The word is put together again from the fields its instruction was read from. -/
theorem encode_of_decode (w : Word) (i : Instr) (h : decode w = .ok i) :
    encode i = w &&& i.significantBits := by
  apply BitVec.eq_of_toNat_eq
  have hop := opcodeField_toNat w
  rw [and_significantBits_toNat]
  unfold decode at h
  split at h <;> cases h
  case h_10 =>
    simp only [encode_decodeJump, ignoredBits_decodeJump, type2_toNat, rdField_toNat, imm8Field_toNat,
      BitVec.ofNat_eq_ofNat, BitVec.toNat_ofNat, Nat.reducePow, Nat.reduceMod, Nat.reduceMul]
    omega
  all_goals
    simp only [encode, ignoredBits, type1_toNat, type2_toNat, type3_toNat, opcodeOnly_toNat,
      rdField_toNat, raField_toNat, rbField_toNat, simm5Field_toNat, imm8Field_toNat,
      BitVec.ofNat_eq_ofNat, BitVec.toNat_ofNat, Nat.reducePow, Nat.reduceMod, Nat.reduceMul]
    omega

/-- Settles O7: the instruction is one the decoder's branches give, and its encoding puts the decoded
fields back in their places. -/
theorem decodedWordDiffersOnlyInIgnoredBits : Obligations.DecodedWordDiffersOnlyInIgnoredBits :=
  fun w i h => ⟨wellFormed_of_decode w i h, encode_of_decode w i h⟩

/-- A word that agrees with an encoding on the decoded bits has its opcode: none of the bits 15:11 is
ignored. -/
theorem opcodeIs_of_encode_eq (w : Word) (i : Instr) (h : encode i = w &&& i.significantBits) :
    opcodeIs w i.opcode.toNat := by
  have hw := and_significantBits_toNat w i
  have hop := opcodeIs_encode i
  rw [← h] at hw
  unfold opcodeIs at *
  rcases ignoredBits_cases i with hk | hk | hk | hk <;> rw [hk] at hw <;> omega

theorem opcodeIs_of_decode (w : Word) (i : Instr) (h : decode w = .ok i) :
    opcodeIs w i.opcode.toNat :=
  opcodeIs_of_encode_eq w i (encode_of_decode w i h)

theorem rdField_eq_of_toNat (v w : Word) (h : v.toNat / 256 % 8 = w.toNat / 256 % 8) :
    rdField v = rdField w :=
  Reg.eq_of_number_toNat _ _ (by rw [rdField_toNat, rdField_toNat, h])

theorem raField_eq_of_toNat (v w : Word) (h : v.toNat / 32 % 8 = w.toNat / 32 % 8) :
    raField v = raField w :=
  Reg.eq_of_number_toNat _ _ (by rw [raField_toNat, raField_toNat, h])

theorem rbField_eq_of_toNat (v w : Word) (h : v.toNat / 4 % 8 = w.toNat / 4 % 8) :
    rbField v = rbField w :=
  Reg.eq_of_number_toNat _ _ (by rw [rbField_toNat, rbField_toNat, h])

/-- Rd and Ra lie above the ignored bits of every form that has them. -/
theorem registerFields_of_encode_eq (w : Word) (i : Instr) (h : encode i = w &&& i.significantBits)
    (hk : ignoredBits i ≤ 5) :
    rdField w = rdField (encode i) ∧ raField w = raField (encode i) := by
  have hw := and_significantBits_toNat w i
  rw [← h] at hw
  constructor
  · apply rdField_eq_of_toNat
    rcases ignoredBits_cases i with hi | hi | hi | hi <;> rw [hi] at hw <;> omega
  · apply raField_eq_of_toNat
    rcases ignoredBits_cases i with hi | hi | hi | hi <;> rw [hi] at hw <;> omega

/-- Rb lies above the two ignored bits of CMP. -/
theorem rbField_of_encode_eq (w : Word) (i : Instr) (h : encode i = w &&& i.significantBits)
    (hk : ignoredBits i = 2) : rbField w = rbField (encode i) := by
  have hw := and_significantBits_toNat w i
  rw [← h, hk] at hw
  apply rbField_eq_of_toNat
  omega

/-- The converse of `encode_of_decode`: the decoder reads no ignored bit. -/
theorem decode_of_encode_eq (w : Word) (i : Instr) (hwf : i.wellFormed = true)
    (h : encode i = w &&& i.significantBits) : decode w = .ok i := by
  have hop := opcodeIs_of_encode_eq w i h
  cases i with
  | nop => exact decode_of_opcode_nop w hop
  | halt => exact decode_of_opcode_halt w hop
  | mov rd ra =>
    obtain ⟨hrd, hra⟩ := registerFields_of_encode_eq w _ h le_rfl
    simp [decode_of_opcode_mov w hop, hrd, hra, encode]
  | add rd ra =>
    obtain ⟨hrd, hra⟩ := registerFields_of_encode_eq w _ h le_rfl
    simp [decode_of_opcode_add w hop, hrd, hra, encode]
  | sub rd ra =>
    obtain ⟨hrd, hra⟩ := registerFields_of_encode_eq w _ h le_rfl
    simp [decode_of_opcode_sub w hop, hrd, hra, encode]
  | cmp rd ra rb =>
    obtain ⟨hrd, hra⟩ := registerFields_of_encode_eq w _ h (by decide : 2 ≤ 5)
    have hrb := rbField_of_encode_eq w _ h rfl
    simp [decode_of_opcode_cmp w hop, hrd, hra, hrb, encode]
  | _ =>
    have hsame : encode _ = w := h.trans BitVec.and_allOnes
    rw [← hsame]
    exact decodeOfEncodeIsTheInstruction _ hwf

/-- Settles O8: both words agree with the same encoding on the bits that are decoded. -/
theorem ignoredBitsHaveNoEffect : Obligations.IgnoredBitsHaveNoEffect := fun v w i hw hagree =>
  decode_of_encode_eq v i (wellFormed_of_decode w i hw) ((encode_of_decode w i hw).trans hagree.symm)

end Sys2Proof.Machine
end

section
/-! The opcode map as a whole (R80, R84, R87): which words are instructions, and the rows of
spec/opcode_table.json. -/

namespace Sys2Proof.Machine

/-- R84: the decoder's last branch takes exactly the eighteen opcodes listed. -/
theorem decode_eq_error_iff (w : Word) :
    (∃ e, decode w = .error e) ↔ w.toNat / 2048 ∈ unassignedOpcodes := by
  have hlt := (opcodeField w).isLt
  rw [← opcodeField_toNat]
  unfold decode
  split
  case h_15 =>
    simp only [imp_false] at *
    simp only [unassignedOpcodes, List.cons_append, List.nil_append, List.mem_cons, List.not_mem_nil]
    refine ⟨fun _ => by omega, fun _ => ⟨_, rfl⟩⟩
  all_goals
    rename_i hop
    simp [hop, unassignedOpcodes]

/-- R84: a step on a word that is no instruction. -/
theorem step_of_decode_error (s : State) (w : Word) (e : DecodeError) (hrun : running s)
    (hfetch : fetch s.pc s = .ok w) (hdecode : decode w = .error e) :
    step s = .fault (.illegalInstruction w s.pc) := by
  obtain ⟨hhalted, hfault⟩ := hrun
  simp [step, fetchInstr, hhalted, hfault, hfetch, hdecode, raise]

/-- Settles O10: the decoder's last branch, and the fault a step makes of it. -/
theorem unassignedOpcodesAreIllegal : Obligations.UnassignedOpcodesAreIllegal := by
  refine ⟨decode_eq_error_iff, fun s w hrun hfetch hop => ?_⟩
  obtain ⟨e, he⟩ := (decode_eq_error_iff w).2 hop
  exact step_of_decode_error s w e hrun hfetch he

/-- The form of every row of an instruction: its mask keeps the opcode alone, its match is an assigned
opcode. -/
theorem instructionRows_form : ∀ row ∈ instructionRows,
    row.mask = Instr.nop.significantBits ∧ row.pattern.toNat / 2048 ∉ unassignedOpcodes ∧
      row.pattern.toNat % 2048 = 0 := by decide

/-- The form of every row of a condition (R87): its mask keeps the opcode and the code, its match has
JMP's opcode. -/
theorem aliasRows_form : ∀ row ∈ aliasRows,
    row.mask = 0xF8FF#16 ∧ row.pattern = type2 0b01100 .a (imm8Field row.pattern) := by decide

/-- The names of an instruction are those of the rows that match its opcode. -/
theorem mem_tableNames_iff_opcode (i : Instr) : ∀ row ∈ instructionRows,
    (row.mnemonic ∈ i.tableNames ↔ row.pattern.toNat / 2048 = i.opcode.toNat) := by
  cases i <;>
    simp only [Instr.tableNames, Instr.mnemonic, Instr.opcode, BitVec.ofNat_eq_ofNat, BitVec.reduceEq,
      reduceIte] <;>
    decide

/-- Only JMP's opcode has the names of the conditions. -/
theorem opcode_of_mem_tableNames (i : Instr) : ∀ row ∈ aliasRows,
    row.mnemonic ∈ i.tableNames → i.opcode = 0b01100#5 := by
  cases i <;>
    simp only [Instr.tableNames, Instr.mnemonic, Instr.opcode, BitVec.ofNat_eq_ofNat, BitVec.reduceEq,
      reduceIte] <;>
    decide

/-- A row of a condition names its condition alone, whose code is 1 to 8. -/
theorem aliasRows_code : ∀ row ∈ aliasRows,
    row.mnemonic ∉ ["JMP", "JMP"] ∧ 1 ≤ (imm8Field row.pattern).toNat ∧
      (imm8Field row.pattern).toNat ≤ 8 := by decide

theorem mem_tableNames_decodeJump_iff (rd : Reg) (cc : BitVec 8) : ∀ row ∈ aliasRows,
    (row.mnemonic ∈ (decodeJump rd cc).tableNames ↔ imm8Field row.pattern = cc) := by
  simp only [← BitVec.toNat_inj]
  unfold decodeJump
  split
  case h_9 =>
    intro row hrow
    obtain ⟨hname, hlow, hhigh⟩ := aliasRows_code row hrow
    simp only [imp_false] at *
    exact iff_of_false hname (by omega)
  all_goals
    rename_i hcc
    rw [hcc]
    simp only [Instr.tableNames, Instr.mnemonic, Instr.opcode, BitVec.ofNat_eq_ofNat, reduceIte]
    decide

theorem type2_fields (w : Word) : type2 (opcodeField w) (rdField w) (imm8Field w) = w := by
  apply BitVec.eq_of_toNat_eq
  rw [type2_toNat, opcodeField_toNat, rdField_toNat, imm8Field_toNat]
  omega

theorem type2_inj (op op' : BitVec 5) (rd : Reg) (n n' : BitVec 8) :
    type2 op rd n = type2 op' rd n' ↔ op = op' ∧ n = n' := by
  refine ⟨fun h => ⟨?_, ?_⟩, fun ⟨hop, hn⟩ => by rw [hop, hn]⟩
  · simpa using congrArg opcodeField h
  · simpa using congrArg imm8Field h

/-- The mask of a condition's row clears Rd and keeps the rest. -/
theorem and_F8FF (w : Word) : w &&& 0xF8FF#16 = type2 (opcodeField w) .a (imm8Field w) := by
  have hop : opcodeField (w &&& 0xF8FF#16) = opcodeField w := by
    simp only [opcodeField, BitVec.extractLsb'_and]
    exact BitVec.and_allOnes
  have hrd : rdField (w &&& 0xF8FF#16) = .a := by
    simp only [rdField, BitVec.extractLsb'_and]
    exact congrArg Reg.ofNumber BitVec.and_zero
  have hn : imm8Field (w &&& 0xF8FF#16) = imm8Field w := by
    simp only [imm8Field, BitVec.extractLsb'_and]
    exact BitVec.and_allOnes
  rw [← type2_fields (w &&& 0xF8FF#16), hop, hrd, hn]

/-- A row that keeps the opcode alone, of an assigned opcode. -/
theorem matches_instructionRow_iff (row : OpcodeRow) (hrow : row ∈ instructionRows) (w : Word) :
    w &&& row.mask = row.pattern ↔ ∃ i, decode w = .ok i ∧ row.mnemonic ∈ i.tableNames := by
  obtain ⟨hmask, hassigned, hlow⟩ := instructionRows_form row hrow
  have hopcode : w &&& row.mask = row.pattern ↔ w.toNat / 2048 = row.pattern.toNat / 2048 := by
    have hand : (w &&& row.mask).toNat = w.toNat / 2048 * 2048 := by
      rw [hmask]
      exact and_significantBits_toNat w .nop
    rw [← BitVec.toNat_inj, hand]
    omega
  rw [hopcode]
  constructor
  · intro heq
    cases hdecode : decode w with
    | error e => exact absurd ((decode_eq_error_iff w).1 ⟨e, hdecode⟩) (heq ▸ hassigned)
    | ok i =>
      exact ⟨i, rfl, (mem_tableNames_iff_opcode i row hrow).2
        (heq.symm.trans (opcodeIs_of_decode w i hdecode))⟩
  · rintro ⟨i, hdecode, hname⟩
    exact (opcodeIs_of_decode w i hdecode).trans ((mem_tableNames_iff_opcode i row hrow).1 hname).symm

/-- A row that keeps JMP's opcode and a condition code. -/
theorem matches_aliasRow_iff (row : OpcodeRow) (hrow : row ∈ aliasRows) (w : Word) :
    w &&& row.mask = row.pattern ↔ ∃ i, decode w = .ok i ∧ row.mnemonic ∈ i.tableNames := by
  obtain ⟨hmask, hpattern⟩ := aliasRows_form row hrow
  rw [hmask, hpattern, and_F8FF, type2_inj, ← BitVec.toNat_inj, opcodeField_toNat]
  constructor
  · rintro ⟨hop, hcode⟩
    exact ⟨_, decode_of_opcode_jmp w hop, (mem_tableNames_decodeJump_iff _ _ row hrow).2 hcode.symm⟩
  · rintro ⟨i, hdecode, hname⟩
    have hop : opcodeIs w 0b01100 := by
      have h := opcodeIs_of_decode w i hdecode
      rwa [opcode_of_mem_tableNames i row hrow hname] at h
    obtain rfl : decodeJump _ _ = i := Except.ok.inj ((decode_of_opcode_jmp w hop).symm.trans hdecode)
    exact ⟨hop, ((mem_tableNames_decodeJump_iff _ _ row hrow).1 hname).symm⟩

/-- Settles O9: the rows of the instructions go by the opcode alone, those of the conditions by JMP's
opcode and the code. -/
theorem decoderAgreesWithOpcodeTable : Obligations.DecoderAgreesWithOpcodeTable := by
  intro row hrow w
  rcases List.mem_append.1 hrow with h | h
  · exact matches_instructionRow_iff row h w
  · exact matches_aliasRow_iff row h w

/-- Settles O11: each word is evaluated. -/
theorem writtenOutWordsDecode : Obligations.WrittenOutWordsDecode := by
  unfold Obligations.WrittenOutWordsDecode
  decide

end Sys2Proof.Machine
end

section
/-! What an instruction can do, said once.  Every meaning is one of the shared operations; a completed
one has one of five effects, from which the rules of the whole machine are read off. -/

namespace Sys2Proof.Machine

@[simp] theorem exec_halt (s : State) : exec .halt s = .next { s with halted := true } := rfl

@[simp] theorem exec_lwl (rd ra : Reg) (d : BitVec 5) (s : State) :
    exec (.lwl rd ra d) s = loadVia lowByte rd ra d s := rfl

@[simp] theorem exec_swl (rd ra : Reg) (d : BitVec 5) (s : State) :
    exec (.swl rd ra d) s = storeVia lowByte rd ra d s := rfl

@[simp] theorem exec_movi (rd : Reg) (n : BitVec 8) (s : State) :
    exec (.movi rd n) s = setAndAdvance rd (imm8Value n) s := rfl

@[simp] theorem exec_addi (rd : Reg) (n : BitVec 8) (s : State) :
    exec (.addi rd n) s = setAndAdvance rd (readReg rd s + imm8Value n) s := rfl

@[simp] theorem exec_subi (rd : Reg) (n : BitVec 8) (s : State) :
    exec (.subi rd n) s = setAndAdvance rd (readReg rd s - imm8Value n) s := rfl

/-- JMP with a code of Table 5 (R163, R164). -/
theorem exec_jmp_of_cond (rd : Reg) (cc : BitVec 8) (c : Cond) (s : State)
    (h : condOfCode cc = some c) : exec (.jmp rd cc) s = jumpOn c rd s := by
  simp [exec, execJmp, h]

/-- JMP with a code that Table 5 does not define (R85). -/
theorem exec_jmp_reserved (rd : Reg) (cc : BitVec 8) (s : State) (h : 8 < cc.toNat) :
    exec (.jmp rd cc) s = .fault (.reservedCondition (encode (.jmp rd cc)) s.pc) := by
  simp [exec, execJmp, raise, (condOfCode_eq_none_iff cc).2 h]

/-- The state `t` in which an instruction that completes leaves the machine, up to the values
written. -/
inductive Effect (i : Instr) (s : State) : State → Prop
  | advances (hi : i = .nop) : Effect i s (advancePc s)
  | halts (hi : i = .halt) : Effect i s { s with halted := true }
  | writes (rd : Reg) (v : Word) (hrd : destination i = some rd) :
      Effect i s (advancePc (writeReg rd v s))
  | stores (a v : Word) (ha : storeAddress i s = some a) (hok : accessAllowed a s) :
      Effect i s (advancePc (setCell a v s))
  | jumps (target : Word) (hi : isJump i = true)
      (htarget : target = s.pc + 1 ∨ target = readReg (rdField (encode i)) s) :
      Effect i s (setPc target s)

theorem Effect.of_setAndAdvance {i : Instr} {s t : State} {rd : Reg} {v : Word}
    (h : setAndAdvance rd v s = .next t) (hrd : destination i = some rd) : Effect i s t := by
  cases h
  exact .writes rd v hrd

theorem Effect.of_loadVia {i : Instr} {s t : State} {narrow : Word → Word} {rd ra : Reg}
    {d : BitVec 5} (h : loadVia narrow rd ra d s = .next t) (hrd : destination i = some rd) :
    Effect i s t := by
  obtain ⟨-, rfl⟩ := (loadVia_next_iff narrow rd ra d s t).1 h
  exact .writes rd _ hrd

theorem Effect.of_storeVia {i : Instr} {s t : State} {narrow : Word → Word} {rd ra : Reg}
    {d : BitVec 5} (h : storeVia narrow rd ra d s = .next t)
    (ha : storeAddress i s = some (effectiveAddress ra d s)) : Effect i s t := by
  obtain ⟨hok, rfl⟩ := (storeVia_next_iff narrow rd ra d s t).1 h
  exact .stores _ _ ha hok

theorem Effect.of_jumpOn {i : Instr} {s t : State} {c : Cond} {rd : Reg}
    (h : jumpOn c rd s = .next t) (hi : isJump i = true) (hrd : rdField (encode i) = rd) :
    Effect i s t := by
  cases h
  subst hrd
  refine .jumps _ hi ?_
  split
  · exact .inr rfl
  · exact .inl rfl

/-- Everything an instruction that completes can do. -/
theorem effect_of_exec (i : Instr) (s t : State) (h : exec i s = .next t) : Effect i s t := by
  cases i with
  | nop => cases h; exact .advances rfl
  | halt => cases h; exact .halts rfl
  | lw | lwl => exact .of_loadVia h rfl
  | sw | swl => exact .of_storeVia h rfl
  | mov | movi | add | addi | sub | subi | cmp => exact .of_setAndAdvance h rfl
  | je | jne | jg | jge | jl | jle | js | jns => exact .of_jumpOn h rfl (rdField_type2 _ _ _)
  | jmp rd cc =>
    cases hc : condOfCode cc with
    | some c =>
      rw [exec_jmp_of_cond rd cc c s hc] at h
      exact .of_jumpOn h rfl (rdField_type2 _ _ _)
    | none =>
      rw [exec_jmp_reserved rd cc s ((condOfCode_eq_none_iff cc).1 hc)] at h
      cases h

end Sys2Proof.Machine
end

section
/-! Rules of the whole machine: what `Effect` leaves unchanged. -/

namespace Sys2Proof.Machine

/-- The invariant reads the parameters, memory and the place of the image alone. -/
theorem invariant_of_eq (s t : State) (h : invariant s) (hparams : t.params = s.params)
    (hram : t.ram = s.ram) (hcode : t.code = s.code) : invariant t := by
  unfold invariant
  rwa [hparams, hram, hcode]

/-- A store to an implemented cell keeps memory canonical and inside RAM. -/
theorem invariant_setCell (s : State) (a v : Word) (h : invariant s)
    (ha : a.toNat < s.params.ramWords) : invariant (setCell a v s) := by
  obtain ⟨hparams, hwf, hbelow, hfits⟩ := h
  exact ⟨hparams, Memory.wf_write s.ram a.toNat v hwf,
    Memory.below_write s.ram a.toNat _ v hbelow ha, hfits⟩

theorem invariant_of_effect (i : Instr) (s t : State) (h : invariant s) (heffect : Effect i s t) :
    invariant t := by
  cases heffect with
  | advances | halts | writes | jumps => exact invariant_of_eq s _ h rfl rfl rfl
  | stores a v ha hok =>
    exact invariant_of_eq _ _ (invariant_setCell s a v h hok.1) rfl rfl rfl

/-- Settles O14: a halted machine is left as it is, and of the five effects only a store touches what
the invariant reads, at an implemented address. -/
theorem stepKeepsInvariant : Obligations.StepKeepsInvariant := by
  intro s t h hstep
  rcases (step_next_iff s t).1 hstep with ⟨-, -, rfl⟩ | ⟨-, w, i, -, -, hexec⟩
  · exact h
  · exact invariant_of_effect i s t h (effect_of_exec i s t hexec)

/-- Settles O40: of the five effects only a register write changes a register, and it is the
destination. -/
theorem onlyTheDestinationRegisterChanges : Obligations.OnlyTheDestinationRegisterChanges := by
  intro i s t hexec r hr
  cases effect_of_exec i s t hexec with
  | advances | halts | stores | jumps => exact readReg_of_regs r s _ rfl
  | writes rd v hrd =>
    have hne : r ≠ rd := fun e => hr (e ▸ hrd)
    rw [readReg_advancePc, readReg_writeReg_other r rd v s hne]

/-- Settles O42: of the five effects only a store changes a cell, and it is the store's address. -/
theorem onlyStoresChangeMemory : Obligations.OnlyStoresChangeMemory := by
  intro i s t hexec a ha
  cases effect_of_exec i s t hexec with
  | advances | halts | writes | jumps => exact cell_of_ram a s _ rfl
  | stores b v hb =>
    have hne : a ≠ b := fun e => ha (e ▸ hb)
    rw [cell_advancePc, cell_setCell_other b a v s hne]

theorem not_halt_nor_jump_of_destination (i : Instr) (rd : Reg) (h : destination i = some rd) :
    i ≠ .halt ∧ isJump i = false := by
  cases i <;> simp_all [destination, isJump]

theorem not_halt_nor_jump_of_storeAddress (i : Instr) (s : State) (a : Word)
    (h : storeAddress i s = some a) : i ≠ .halt ∧ isJump i = false := by
  cases i <;> simp_all [storeAddress, isJump]

/-- Settles O43: every effect but HALT's and a jump's ends in `advancePc`. -/
theorem programCounterAdvancesByOne : Obligations.ProgramCounterAdvancesByOne := by
  intro i s t hexec
  cases effect_of_exec i s t hexec with
  | advances hi => simp [hi, isJump]
  | halts hi => simp [hi, isJump]
  | writes rd v hrd =>
    obtain ⟨hhalt, hjump⟩ := not_halt_nor_jump_of_destination i rd hrd
    simp only [hhalt, hjump]
    exact ⟨nofun, fun _ _ => pcPlusOne_advancePc (writeReg rd v s), nofun⟩
  | stores a v ha =>
    obtain ⟨hhalt, hjump⟩ := not_halt_nor_jump_of_storeAddress i s a ha
    simp only [hhalt, hjump]
    exact ⟨nofun, fun _ _ => pcPlusOne_advancePc (setCell a v s), nofun⟩
  | jumps target hi htarget =>
    refine ⟨?_, fun _ hn => absurd (hi.symm.trans hn) (by decide), fun _ => ?_⟩
    · rintro rfl
      cases hi
    · rcases htarget with rfl | rfl
      · exact .inl (pcPlusOne_advancePc s)
      · exact .inr rfl

/-- Settles O44: HALT's effect alone sets `halted`, and no effect touches the other marks. -/
theorem onlyHaltHaltsAndLaunchIsFixed : Obligations.OnlyHaltHaltsAndLaunchIsFixed := by
  intro i s t hexec
  refine ⟨?_, ?_⟩
  · cases effect_of_exec i s t hexec with
    | halts hi => simp [hi]
    | advances hi => simp [hi]
    | writes rd v hrd => simp [(not_halt_nor_jump_of_destination i rd hrd).1]
    | stores a v ha => simp [(not_halt_nor_jump_of_storeAddress i s a ha).1]
    | jumps target hi =>
      have hhalt : i ≠ .halt := by rintro rfl; cases hi
      simp [hhalt]
  · cases effect_of_exec i s t hexec <;> exact ⟨rfl, rfl, rfl⟩

end Sys2Proof.Machine
end

section
/-! When an instruction executes (R181, R182, R190), and which fault a memory instruction raises where
it does not (R184). -/

namespace Sys2Proof.Machine

/-- R52, R53: a memory instruction raises the fault of its data access. -/
theorem exec_of_dataFault (i : Instr) (s : State) (a : Word) (f : Fault)
    (ha : accessAddress i s = some a) (hf : dataFault a s = some f) : exec i s = .fault f := by
  cases i with
  | lw rd ra d | lwl rd ra d =>
    obtain rfl := Option.some.inj ha
    exact loadVia_fault _ rd ra d s f hf
  | sw rd ra d | swl rd ra d =>
    obtain rfl := Option.some.inj ha
    exact storeVia_fault _ rd ra d s f hf
  | _ => cases ha

/-- Settles O24: the address is checked against RAM before it is checked against the image. -/
theorem memoryInstructionsFaultInOrder : Obligations.MemoryInstructionsFaultInOrder :=
  fun i s a ha =>
    ⟨fun hout => exec_of_dataFault i s a _ ha (dataFault_outside a s hout),
      fun image hcode hin hlt =>
        exec_of_dataFault i s a _ ha (dataFault_closed a s image hcode hin hlt)⟩

/-- A code of Table 5 is a jump's, and a jump completes. -/
theorem exec_jmp_next_iff (rd : Reg) (cc : BitVec 8) (s : State) :
    (∃ t, exec (.jmp rd cc) s = .next t) ↔ cc.toNat ≤ 8 := by
  cases hc : condOfCode cc with
  | some c =>
    have hcc : ¬ 8 < cc.toNat := by rw [← condOfCode_eq_none_iff, hc]; nofun
    exact iff_of_true ⟨_, exec_jmp_of_cond rd cc c s hc⟩ (by omega)
  | none =>
    have hcc := (condOfCode_eq_none_iff cc).1 hc
    rw [exec_jmp_reserved rd cc s hcc]
    exact iff_of_false (fun ⟨_, h⟩ => nomatch h) (by omega)

/-- Settles O45: a memory instruction completes as its access does, JMP as its code does, and every
other meaning is a next state outright. -/
theorem instructionsExecuteExceptListedFaults :
    Obligations.InstructionsExecuteExceptListedFaults := by
  intro i s
  cases i with
  | lw | lwl => simp [accessAddress, loadVia_next_iff]
  | sw | swl => simp [accessAddress, storeVia_next_iff]
  | jmp rd cc => simp [accessAddress, exec_jmp_next_iff]
  | _ => exact iff_of_true ⟨_, rfl⟩ ⟨nofun, nofun⟩

/-- Where an instruction does not complete it faults. -/
theorem exec_next_or_fault (i : Instr) (s : State) :
    (∃ t, exec i s = .next t) ∨ ∃ f, exec i s = .fault f := by
  by_cases hnext : ∃ t, exec i s = .next t
  · exact .inl hnext
  · refine .inr ?_
    rw [instructionsExecuteExceptListedFaults i s, not_and_or] at hnext
    rcases hnext with haccess | hcode
    · simp only [not_forall] at haccess
      obtain ⟨a, ha, hnot⟩ := haccess
      rw [← dataFault_eq_none_iff, ← ne_eq, Option.ne_none_iff_exists'] at hnot
      obtain ⟨f, hf⟩ := hnot
      exact ⟨f, exec_of_dataFault i s a f ha hf⟩
    · simp only [not_forall, not_le] at hcode
      obtain ⟨rd, cc, rfl, hcc⟩ := hcode
      exact ⟨_, exec_jmp_reserved rd cc s hcc⟩

theorem exec_ne_refused (i : Instr) (s : State) (x : Refusal) : exec i s ≠ .refused x := by
  rcases exec_next_or_fault i s with ⟨t, h⟩ | ⟨f, h⟩ <;> rw [h] <;> nofun

/-- A step refuses only what an instruction's meaning refuses. -/
theorem step_ne_refused (s : State) (x : Refusal) : step s ≠ .refused x := by
  unfold step raise stayHalted
  cases s.fault with
  | some f => nofun
  | none =>
    cases s.halted with
    | true => nofun
    | false =>
      cases fetchInstr s with
      | error f => nofun
      | ok i => exact exec_ne_refused i s x

/-- Settles O46: an instruction that does not complete faults. -/
theorem nothingIsRefused : Obligations.NothingIsRefused := ⟨exec_ne_refused, step_ne_refused⟩

end Sys2Proof.Machine
end

section
/-! The step (R13, R30, R185, R196): a running machine, a halted one and a stopped one. -/

namespace Sys2Proof.Machine

/-- Settles O12: `step_of_decode`, the rule the loads and stores use. -/
theorem stepRunsTheDecodedInstruction : Obligations.StepRunsTheDecodedInstruction := step_of_decode

/-- Log entry 6. -/
theorem step_of_halted (s : State) (hhalted : s.halted = true) (hfault : s.fault = none) :
    step s = .next s :=
  (step_next_iff s s).2 (.inl ⟨hfault, hhalted, rfl⟩)

/-- Log entry 7. -/
theorem step_recordFault (f : Fault) (s : State) : step (recordFault f s) = .fault f := rfl

theorem advance_of_step_next (s t : State) (h : step s = .next t) : advance s = t := by
  simp [advance, h]

theorem advance_of_step_fault (s : State) (f : Fault) (h : step s = .fault f) :
    advance s = recordFault f s := by
  simp [advance, h]

/-- A machine whose step leaves it as it is stays so for any number of steps. -/
theorem run_of_step_self (s : State) (h : step s = .next s) (k : Nat) :
    Host.Core.run core k s = .next s := by
  induction k with
  | zero => rfl
  | succ k ih =>
    have hcore : core.step s = .next s := h
    simp only [Host.Core.run, hcore]
    exact ih

/-- Settles O15: the step of a halted machine answers the same state, so every run of it does. -/
theorem haltedMachineNeverChanges : Obligations.HaltedMachineNeverChanges := by
  intro s k hhalted hfault
  have hstep := step_of_halted s hhalted hfault
  exact ⟨run_of_step_self s hstep k, advance_of_step_next s s hstep⟩

/-- Settles O16: the state after a fault is `recordFault`'s, and a recorded fault answers every later
step. -/
theorem faultsArePreciseAndFinal : Obligations.FaultsArePreciseAndFinal := by
  intro s f hstep
  rw [advance_of_step_fault s f hstep, advance_of_step_fault _ f (step_recordFault f s)]
  exact ⟨fun r => readReg_recordFault r f s, sameMemory_recordFault f s, rfl, rfl, rfl, rfl, rfl,
    step_recordFault f s, rfl⟩

/-- Settles O18: opcode 10000 selects HALT whatever bits 10:0 hold, and HALT updates `halted` alone. -/
theorem haltSetsOnlyHalted : Obligations.HaltSetsOnlyHalted :=
  ⟨decode_of_opcode_halt, fun s => ⟨_, exec_halt s, rfl, rfl, fun r => readReg_of_regs r s _ rfl,
    fun a => cell_of_ram a s _ rfl, rfl, rfl, rfl⟩⟩

end Sys2Proof.Machine
end

section
/-! Registers an instruction does not name (R24, R163).  Writing one first or last is the same: each
shared operation commutes with the write. -/

namespace Sys2Proof.Machine

theorem effectiveAddress_writeReg (r ra : Reg) (v : Word) (d : BitVec 5) (s : State) (h : r ≠ ra) :
    effectiveAddress ra d (writeReg r v s) = effectiveAddress ra d s := by
  simp only [effectiveAddress, readReg_writeReg_other ra r v s h.symm]

theorem advancePc_writeReg (r : Reg) (v : Word) (s : State) :
    advancePc (writeReg r v s) = writeReg r v (advancePc s) := rfl

theorem dataFault_writeReg (r : Reg) (v a : Word) (s : State) :
    dataFault a (writeReg r v s) = dataFault a s := rfl

theorem setAndAdvance_writeReg (r rd : Reg) (v x y : Word) (s : State) (hrd : r ≠ rd) (hxy : x = y) :
    setAndAdvance rd x (writeReg r v s) = mapNext (writeReg r v) (setAndAdvance rd y s) := by
  subst hxy
  simp only [setAndAdvance_eq, mapNext, writeReg_comm rd r x v s hrd.symm, advancePc_writeReg]

theorem loadVia_writeReg (narrow : Word → Word) (r rd ra : Reg) (d : BitVec 5) (v : Word) (s : State)
    (hrd : r ≠ rd) (hra : r ≠ ra) :
    loadVia narrow rd ra d (writeReg r v s) = mapNext (writeReg r v) (loadVia narrow rd ra d s) := by
  have haddr := effectiveAddress_writeReg r ra v d s hra
  have hfault := dataFault_writeReg r v (effectiveAddress ra d s) s
  simp only [loadVia, memRead, haddr, hfault]
  cases dataFault (effectiveAddress ra d s) s with
  | some f => rfl
  | none => simp only [cell_writeReg, mapNext, writeReg_comm rd r _ v s hrd.symm, advancePc_writeReg]

theorem storeVia_writeReg (narrow : Word → Word) (r rd ra : Reg) (d : BitVec 5) (v : Word) (s : State)
    (hrd : r ≠ rd) (hra : r ≠ ra) :
    storeVia narrow rd ra d (writeReg r v s) =
      mapNext (writeReg r v) (storeVia narrow rd ra d s) := by
  have haddr := effectiveAddress_writeReg r ra v d s hra
  have hfault := dataFault_writeReg r v (effectiveAddress ra d s) s
  have hvalue := readReg_writeReg_other rd r v s hrd.symm
  simp only [storeVia, memWrite, haddr, hfault, hvalue]
  cases dataFault (effectiveAddress ra d s) s <;> rfl

/-- R163: only a jump on a condition reads F. -/
theorem taken_writeReg (c : Cond) (r : Reg) (v : Word) (s : State) (h : c = .always ∨ r ≠ .f) :
    taken c (writeReg r v s) = taken c s := by
  rcases h with rfl | h
  · rfl
  · simp only [taken, readReg_writeReg_other .f r v s h.symm, writeReg_params]

theorem jumpOn_writeReg (c : Cond) (r rd : Reg) (v : Word) (s : State) (hrd : r ≠ rd)
    (hf : c = .always ∨ r ≠ .f) :
    jumpOn c rd (writeReg r v s) = mapNext (writeReg r v) (jumpOn c rd s) := by
  simp only [jumpOn_eq, taken_writeReg c r v s hf, readReg_writeReg_other rd r v s hrd.symm]
  rfl

/-- JMP reads F unless its code is 0, the condition that always holds. -/
theorem exec_jmp_writeReg (r rd : Reg) (cc : BitVec 8) (v : Word) (s : State)
    (hr : r ∉ touched (.jmp rd cc)) :
    exec (.jmp rd cc) (writeReg r v s) = mapNext (writeReg r v) (exec (.jmp rd cc) s) := by
  by_cases hzero : cc = 0#8
  · subst hzero
    have hrd : r ≠ rd := by simpa [touched] using hr
    rw [exec_jmp_of_cond rd 0#8 .always s rfl, exec_jmp_of_cond rd 0#8 .always _ rfl]
    exact jumpOn_writeReg .always r rd v s hrd (.inl rfl)
  · obtain ⟨hrd, hf⟩ : r ≠ rd ∧ r ≠ .f := by simpa [touched, hzero] using hr
    cases hc : condOfCode cc with
    | some c =>
      rw [exec_jmp_of_cond rd cc c s hc, exec_jmp_of_cond rd cc c _ hc]
      exact jumpOn_writeReg c r rd v s hrd (.inr hf)
    | none =>
      have hcc := (condOfCode_eq_none_iff cc).1 hc
      rw [exec_jmp_reserved rd cc s hcc, exec_jmp_reserved rd cc _ hcc]
      rfl

/-- Settles O41: what the shared operation reads is read from the registers named, and the write of an
unnamed one commutes with what it writes. -/
theorem unnamedRegistersAreIndependent : Obligations.UnnamedRegistersAreIndependent := by
  intro i r v s hr
  have hread : ∀ q, r ≠ q → readReg q (writeReg r v s) = readReg q s :=
    fun q hq => readReg_writeReg_other q r v s hq.symm
  cases i with
  | nop | halt => rfl
  | lw rd ra d | lwl rd ra d =>
    obtain ⟨hrd, hra⟩ : r ≠ rd ∧ r ≠ ra := by simpa [touched] using hr
    exact loadVia_writeReg _ r rd ra d v s hrd hra
  | sw rd ra d | swl rd ra d =>
    obtain ⟨hrd, hra⟩ : r ≠ rd ∧ r ≠ ra := by simpa [touched] using hr
    exact storeVia_writeReg _ r rd ra d v s hrd hra
  | mov rd ra | add rd ra | sub rd ra =>
    obtain ⟨hrd, hra⟩ : r ≠ rd ∧ r ≠ ra := by simpa [touched] using hr
    exact setAndAdvance_writeReg r rd v _ _ s hrd (by simp only [hread rd hrd, hread ra hra])
  | movi rd n | addi rd n | subi rd n =>
    have hrd : r ≠ rd := by simpa [touched] using hr
    exact setAndAdvance_writeReg r rd v _ _ s hrd (by simp only [hread rd hrd])
  | cmp rd ra rb =>
    obtain ⟨hrd, hra, hrb⟩ : r ≠ rd ∧ r ≠ ra ∧ r ≠ rb := by simpa [touched] using hr
    exact setAndAdvance_writeReg r rd v _ _ s hrd
      (by simp only [hread ra hra, hread rb hrb, writeReg_params])
  | jmp rd cc => exact exec_jmp_writeReg r rd cc v s hr
  | je rd | jne rd | jg rd | jge rd | jl rd | jle rd | js rd | jns rd =>
    obtain ⟨hrd, hf⟩ : r ≠ rd ∧ r ≠ .f := by simpa [touched] using hr
    exact jumpOn_writeReg _ r rd v s hrd (.inr hf)

end Sys2Proof.Machine
end

section
/-! The launch and the fetch (R51, R55, R56, R201). -/

namespace Sys2Proof.Machine

/-- Settles O1: `State.reset`'s own fields. -/
theorem resetLeavesPcZeroAndNoMark : Obligations.ResetLeavesPcZeroAndNoMark := ⟨rfl, rfl, rfl⟩

/-- Settles O2: the parameters are in range, and the empty memory and image fit anywhere. -/
theorem resetMeetsInvariant : Obligations.ResetMeetsInvariant :=
  ⟨by decide, reset_ram_wf, nofun, by decide⟩

/-! ### Fetching in each organisation of memory -/

/-- R56: one memory for both. -/
theorem fetch_shared (s : State) (a : Word) (len : Nat) (hcode : s.code = .shared len)
    (hin : inside len a) : fetch a s = .ok (cell a s) := by
  simp only [fetch, hcode, (inImage_iff len a).2 hin, if_true]

theorem toNat_resetPc_add (k : Nat) (hk : k < 65536) :
    (Config.resetPc + BitVec.ofNat 16 k).toNat = Config.resetPc.toNat + k := by
  simp only [Config.resetPc, BitVec.zero_add, BitVec.toNat_ofNat]
  omega

/-- R55: the image's word `k` stands at `RESET_PC + k`. -/
theorem imageWord_resetPc_add (image : List Word) (k : Nat) (w : Word)
    (hfits : Config.resetPc.toNat + image.length ≤ 65536) (hw : image[k]? = some w) :
    imageWord image (Config.resetPc + BitVec.ofNat 16 k) = some w := by
  have hk : k < image.length := (List.getElem?_eq_some_iff.1 hw).1
  have haddr := toNat_resetPc_add k (by omega)
  rw [imageWord_eq_some_iff, haddr, Nat.add_sub_cancel_left]
  exact ⟨by constructor <;> omega, hw⟩

/-- R56: instruction memory of its own, whether or not `UNIFIED_MEMORY` is fixed. -/
theorem fetch_image (s : State) (image : List Word) (a w : Word)
    (hcode : s.code = .separate image ∨ s.code = .unfixed image) (hw : imageWord image a = some w) :
    fetch a s = .ok w := by
  rcases hcode with hcode | hcode <;> simp only [fetch, hcode, hw]

/-- R55: outside the image, in every organisation. -/
theorem fetch_outside (s : State) (a : Word) (hout : ¬ inside (imageLength s.code) a) :
    fetch a s = .error (.fetchAddress a) := by
  have himage : ∀ image : List Word, ¬ inside image.length a → imageWord image a = none :=
    fun image h => Option.eq_none_iff_forall_ne_some.2
      fun w hw => h ((imageWord_eq_some_iff image a w).1 hw).1
  unfold fetch
  cases hcode : s.code with
  | shared len =>
    rw [hcode, imageLength, ← inImage_iff] at hout
    exact if_neg hout
  | separate image | unfixed image =>
    rw [hcode] at hout
    simp only [himage image hout]

/-- R55: a step whose fetch faults. -/
theorem step_of_fetch_error (s : State) (f : Fault) (hrun : running s)
    (hfetch : fetch s.pc s = .error f) : step s = .fault f := by
  obtain ⟨hhalted, hfault⟩ := hrun
  simp [step, fetchInstr, hhalted, hfault, hfetch, raise]

/-- Settles O13: one clause per organisation of memory, and the fault the step makes of the last. -/
theorem fetchReadsTheImageOnly : Obligations.FetchReadsTheImageOnly :=
  ⟨fetch_shared,
    fun s k w image hcode hfits hw =>
      fetch_image s image _ w hcode (imageWord_resetPc_add image k w hfits hw),
    fun s hrun hout => step_of_fetch_error s _ hrun (fetch_outside s s.pc hout)⟩

/-! ### Placing a list of words -/

theorem Memory.below_writeAll (m : Memory) (l : List (Word × Word)) (n : Nat)
    (hm : Memory.below m n) (hl : ∀ c ∈ l, c.1.toNat < n) : Memory.below (Memory.writeAll m l) n := by
  induction l generalizing m with
  | nil => exact hm
  | cons c l ih =>
    obtain ⟨hc, hl⟩ := List.forall_mem_cons.1 hl
    exact ih _ (Memory.below_write m _ n _ hm hc) hl

/-- A cell that the list does not name is left alone. -/
theorem Memory.lookup_writeAll_other (m : Memory) (l : List (Word × Word)) (a : Word)
    (h : a ∉ l.map Prod.fst) :
    Memory.lookup (Memory.writeAll m l) a.toNat = Memory.lookup m a.toNat := by
  induction l generalizing m with
  | nil => rfl
  | cons c l ih =>
    obtain ⟨hc, hl⟩ := not_or.1 (mt List.mem_cons.2 h)
    exact (ih _ hl).trans (Memory.lookup_write_other m _ _ _ fun e => hc (BitVec.eq_of_toNat_eq e))

/-- A cell that the list names once holds the word named with it. -/
theorem Memory.lookup_writeAll_mem (m : Memory) (l : List (Word × Word)) (a v : Word)
    (hl : (l.map Prod.fst).Nodup) (h : (a, v) ∈ l) :
    Memory.lookup (Memory.writeAll m l) a.toNat = some v := by
  induction l generalizing m with
  | nil => cases h
  | cons c l ih =>
    obtain ⟨hc, hl⟩ := List.nodup_cons.1 hl
    rcases List.mem_cons.1 h with rfl | h
    · exact (Memory.lookup_writeAll_other _ l a hc).trans (Memory.lookup_write_same m _ v)
    · exact ih _ hl h

theorem add_ofNat_succ (addr : Word) (k : Nat) :
    addr + 1#16 + BitVec.ofNat 16 k = addr + BitVec.ofNat 16 (k + 1) := by
  rw [Nat.add_comm k 1, BitVec.ofNat_add, ← BitVec.add_assoc]

/-- R55: word `k` of the image is placed `k` addresses on. -/
theorem mem_imageCells (addr : Word) (image : List Word) (k : Nat) (w : Word)
    (h : image[k]? = some w) : (addr + BitVec.ofNat 16 k, w) ∈ imageCells addr image := by
  induction image generalizing addr k with
  | nil => cases h
  | cons x image ih =>
    cases k with
    | zero =>
      obtain rfl : x = w := by simpa using h
      simp [imageCells]
    | succ k =>
      rw [← add_ofNat_succ]
      exact List.mem_cons_of_mem _ (ih (addr + 1) k (by simpa using h))

/-- The addresses the image is placed at, in order. -/
theorem map_fst_imageCells (addr : Word) (image : List Word) :
    (imageCells addr image).map Prod.fst =
      (List.range image.length).map fun k => addr + BitVec.ofNat 16 k := by
  induction image generalizing addr with
  | nil => rfl
  | cons w image ih =>
    simp [imageCells, ih, List.range_succ_eq_map, Function.comp_def, add_ofNat_succ]

/-- An image that fits is placed at the addresses that `inside` names. -/
theorem inside_of_mem_imageCells (image : List Word) (a : Word)
    (hfits : Config.resetPc.toNat + image.length ≤ 65536)
    (h : a ∈ (imageCells Config.resetPc image).map Prod.fst) : inside image.length a := by
  rw [map_fst_imageCells] at h
  obtain ⟨k, hk, rfl⟩ := List.mem_map.1 h
  have hk := List.mem_range.1 hk
  have haddr := toNat_resetPc_add k (by omega)
  constructor <;> omega

/-- An image that fits is placed at no address twice. -/
theorem nodup_imageCells (image : List Word) (hfits : Config.resetPc.toNat + image.length ≤ 65536) :
    ((imageCells Config.resetPc image).map Prod.fst).Nodup := by
  rw [map_fst_imageCells]
  refine List.nodup_range.map_on fun j hj k hk heq => ?_
  have hj := List.mem_range.1 hj
  have hk := List.mem_range.1 hk
  have hjaddr := toNat_resetPc_add j (by omega)
  have hkaddr := toNat_resetPc_add k (by omega)
  rw [heq] at hjaddr
  omega

/-! ### The launched machine -/

section
variable (p : Config.Params) (image : List Word) (data : List (Word × Word))

/-- The initial data alone, as every launch places it. -/
def dataMemory : Memory := Memory.writeAll [] data

theorem launch_ram_unified : (launch p (some true) image data).ram =
    Memory.writeAll (dataMemory data) (imageCells Config.resetPc image) := rfl

/-- Where the memories are not one, data memory holds the initial data alone. -/
theorem launch_ram_apart (unified : Option Bool) (h : unified ≠ some true) :
    (launch p unified image data).ram = dataMemory data := by
  rcases unified with - | - | -
  · rfl
  · rfl
  · exact absurd rfl h

@[simp] theorem imageLength_launch (unified : Option Bool) :
    imageLength (launch p unified image data).code = image.length := by
  rcases unified with - | - | - <;> rfl

end

/-- Settles O3: writing keeps memory canonical, and every address written is in its bound. -/
theorem launchMeetsInvariant : Obligations.LaunchMeetsInvariant := by
  intro p unified image data hp hfits hunified hdata
  have hwf : Memory.wf (dataMemory data) := Memory.wf_writeAll [] data List.Pairwise.nil
  have hbelow : Memory.below (dataMemory data) p.ramWords :=
    Memory.below_writeAll [] data p.ramWords nofun hdata
  rcases unified with - | - | -
  · exact ⟨hp, hwf, hbelow, decide_eq_true hfits⟩
  · exact ⟨hp, hwf, hbelow, decide_eq_true hfits⟩
  · have hram := hunified rfl
    refine ⟨hp, Memory.wf_writeAll _ _ hwf, Memory.below_writeAll _ _ _ hbelow fun c hc => ?_,
      decide_eq_true hram⟩
    have hin := inside_of_mem_imageCells image c.1 hfits (List.mem_map_of_mem hc)
    exact lt_of_lt_of_le hin.2 hram

/-- R56: in a unified memory an image word is what its cell reads. -/
theorem cell_launch_unified (p : Config.Params) (image : List Word) (data : List (Word × Word))
    (k : Nat) (w : Word) (hfits : Config.resetPc.toNat + image.length ≤ 65536)
    (hw : image[k]? = some w) :
    cell (Config.resetPc + BitVec.ofNat 16 k) (launch p (some true) image data) = w := by
  have hlookup := Memory.lookup_writeAll_mem (dataMemory data) _ _ w (nodup_imageCells image hfits)
    (mem_imageCells Config.resetPc image k w hw)
  simp only [cell, launch_ram_unified, hlookup, Option.getD_some]

theorem fetch_launch (p : Config.Params) (unified : Option Bool) (image : List Word)
    (data : List (Word × Word)) (k : Nat) (w : Word)
    (hfits : Config.resetPc.toNat + image.length ≤ 65536) (hw : image[k]? = some w) :
    fetch (Config.resetPc + BitVec.ofNat 16 k) (launch p unified image data) = .ok w := by
  have himage := imageWord_resetPc_add image k w hfits hw
  rcases unified with - | - | -
  · exact fetch_image _ image _ w (.inr rfl) himage
  · exact fetch_image _ image _ w (.inl rfl) himage
  · have hin := ((imageWord_eq_some_iff _ _ _).1 himage).1
    rw [fetch_shared _ _ image.length rfl hin, cell_launch_unified p image data k w hfits hw]

/-- Settles O4: the image's words are fetched where they are held, and the fetch is closed elsewhere. -/
theorem launchedImageIsFetched : Obligations.LaunchedImageIsFetched := by
  intro p unified image data hfits
  refine ⟨?_, ?_, fun k w hw => fetch_launch p unified image data k w hfits hw,
    fun a hout => fetch_outside _ a (by rwa [imageLength_launch])⟩
  · rcases unified with - | - | - <;> exact ⟨rfl, rfl⟩
  · rcases unified with - | - | - <;> rfl

/-- Settles O5: the data are written first, and an image placed over them reaches no address outside
itself. -/
theorem launchedDataIsRead : Obligations.LaunchedDataIsRead := by
  intro p unified image data a v hfits hnodup hmem hout
  have hdata : Memory.lookup (dataMemory data) a.toNat = some v :=
    Memory.lookup_writeAll_mem [] data a v hnodup hmem
  have hram : Memory.lookup (launch p unified image data).ram a.toNat = some v := by
    by_cases hu : unified = some true
    · have himage : a ∉ (imageCells Config.resetPc image).map Prod.fst :=
        fun h => hout ⟨hu, inside_of_mem_imageCells image a hfits h⟩
      rw [hu, launch_ram_unified, Memory.lookup_writeAll_other _ _ a himage, hdata]
    · rw [launch_ram_apart p image data unified hu, hdata]
  simp only [cell, hram, Option.getD_some]

end Sys2Proof.Machine
end

section
/-! Addresses, the byte forms, and a load after a store (R61, R110 to R114). -/

namespace Sys2Proof.Machine

/-- D26: masking with 0x00FF keeps the remainder modulo 256. -/
theorem lowByte_toNat (v : Word) : (lowByte v).toNat = v.toNat % 256 := by
  rw [lowByte, BitVec.toNat_and]
  exact Nat.and_two_pow_sub_one_eq_mod v.toNat 8

/-- Settles O19: the base is no destination of a store, nor of a load into another register. -/
theorem effectiveAddressIsBasePlusDisplacement :
    Obligations.EffectiveAddressIsBasePlusDisplacement := by
  refine ⟨fun ra d s => ⟨addressIs_effectiveAddress ra d s, BitVec.le_toInt d, ?_⟩, ?_⟩
  · have hlt : d.toInt < 16 := BitVec.toInt_lt
    omega
  · have hframe := onlyTheDestinationRegisterChanges
    rintro rd ra d s t (⟨hload | hload, hne⟩ | hstore | hstore)
    · exact hframe _ s t hload ra fun e => hne (Option.some.inj e)
    · exact hframe _ s t hload ra fun e => hne (Option.some.inj e)
    · exact hframe _ s t hstore ra nofun
    · exact hframe _ s t hstore ra nofun

/-- Settles O21: LW.L is `loadVia lowByte`. -/
theorem loadByteZeroExtendsTheLowByte : Obligations.LoadByteZeroExtendsTheLowByte := by
  refine ⟨fun w hop => ⟨_, _, _, decode_of_opcode_lwl w hop, rdField_toNat w, raField_toNat w,
    simm5Field_toNat w⟩, fun s rd ra d => ⟨fun hok => ?_, loadVia_outside lowByte rd ra d s⟩⟩
  rw [← lowByte_toNat]
  exact loadVia_of_accessAllowed lowByte rd ra d s hok

/-- Settles O23: SW.L is `storeVia lowByte`. -/
theorem storeByteClearsTheUpperByte : Obligations.StoreByteClearsTheUpperByte := by
  refine ⟨fun w hop => ⟨_, _, _, decode_of_opcode_swl w hop, rdField_toNat w, raField_toNat w,
    simm5Field_toNat w⟩, fun s rd ra d => ⟨fun hok => ?_, storeVia_outside lowByte rd ra d s⟩⟩
  rw [← lowByte_toNat]
  exact storeVia_of_accessAllowed lowByte rd ra d s hok

/-- The state a completed store leaves. -/
def stored (narrow : Word → Word) (rd ra : Reg) (d : BitVec 5) (s : State) : State :=
  advancePc (setCell (effectiveAddress ra d s) (narrow (readReg rd s)) s)

theorem storeVia_eq_stored (narrow : Word → Word) (rd ra : Reg) (d : BitVec 5) (s : State)
    (hok : accessAllowed (effectiveAddress ra d s) s) :
    storeVia narrow rd ra d s = .next (stored narrow rd ra d s) :=
  (storeVia_next_iff narrow rd ra d s _).2 ⟨hok, rfl⟩

/-- R52: a load after a store, each with its own width: a store changes neither the base register nor
which accesses are allowed. -/
theorem loadVia_stored (wide narrow : Word → Word) (rd rx ra : Reg) (d : BitVec 5) (s : State)
    (hok : accessAllowed (effectiveAddress ra d s) s) :
    ∃ u, loadVia narrow rx ra d (stored wide rd ra d s) = .next u ∧
      readReg rx u = narrow (wide (readReg rd s)) := by
  have haddr : effectiveAddress ra d (stored wide rd ra d s) = effectiveAddress ra d s := by
    simp only [effectiveAddress, stored, readReg_advancePc, readReg_setCell]
  refine ⟨_, (loadVia_next_iff narrow rx ra d _ _).2 ⟨haddr.symm ▸ hok, rfl⟩, ?_⟩
  rw [haddr, readReg_advancePc, readReg_writeReg_same, stored, cell_advancePc, cell_setCell_same]

/-- Settles O25: `loadVia_stored` at the four pairs of widths; the low byte of a low byte is itself. -/
theorem loadReturnsTheStoredValue : Obligations.LoadReturnsTheStoredValue := by
  intro s rd rx ra d hok
  obtain ⟨u, hu, hux⟩ := loadVia_stored id id rd rx ra d s hok
  obtain ⟨v, hv, hvx⟩ := loadVia_stored id lowByte rd rx ra d s hok
  obtain ⟨x, hx, hxx⟩ := loadVia_stored lowByte id rd rx ra d s hok
  obtain ⟨y, hy, hyx⟩ := loadVia_stored lowByte lowByte rd rx ra d s hok
  have hbyte := lowByte_toNat (readReg rd s)
  refine ⟨_, _, u, v, x, y, storeVia_eq_stored id rd ra d s hok,
    storeVia_eq_stored lowByte rd ra d s hok, hu, hux, hv, ?_, hx, ?_, hy, ?_⟩
  · rw [hvx]
    exact hbyte
  · rw [hxx]
    exact hbyte
  · rw [hyx, lowByte_toNat, hbyte, Nat.mod_mod]

/-- R56: apart from a unified memory a fetch reads the image alone. -/
theorem fetch_of_code (s t : State) (image : List Word) (a : Word)
    (hs : s.code = .separate image ∨ s.code = .unfixed image) (ht : t.code = s.code) :
    fetch a t = fetch a s := by
  unfold fetch
  rw [ht]
  rcases hs with hs | hs <;> simp only [hs]

/-- Settles O26: a unified fetch reads the cell the store wrote; any other reads the image, which no
instruction changes. -/
theorem storesReachFetchesOnlyWhenUnified : Obligations.StoresReachFetchesOnlyWhenUnified := by
  refine ⟨fun s rd ra d len hcode hok hin => ⟨_, storeVia_eq_stored id rd ra d s hok, ?_⟩,
    fun i s t image hcode hexec a => ?_⟩
  · rw [fetch_shared (stored id rd ra d s) _ len hcode hin, stored, cell_advancePc,
      cell_setCell_same, id]
  · obtain ⟨-, -, -, hsame⟩ := onlyHaltHaltsAndLaunchIsFixed i s t hexec
    exact fetch_of_code s t image a hcode hsame

end Sys2Proof.Machine
end

section
/-! The forms with an 8-bit immediate (R78, R132, R142, R144): MOV, ADD and SUB with `imm8Value` in the
place of Ra. -/

namespace Sys2Proof.Machine

/-- D7: zero extension keeps the number. -/
@[simp] theorem imm8Value_toNat (n : BitVec 8) : (imm8Value n).toNat = n.toNat :=
  BitVec.toNat_setWidth_of_le (by decide)

/-- Settles O28: the immediate is written as the number it is. -/
theorem moveImmediateZeroExtends : Obligations.MoveImmediateZeroExtends := by
  refine ⟨fun w hop => ⟨_, _, decode_of_opcode_movi w hop, rdField_toNat w, imm8Field_toNat w⟩,
    fun s rd n => ?_⟩
  rw [exec_movi, ← imm8Value_toNat]
  exact writesOnly_setAndAdvance rd (imm8Value n) s

/-- Settles O30: the sum is of what Rd read before the write. -/
theorem addImmediateIsTheSum : Obligations.AddImmediateIsTheSum := by
  refine ⟨fun w hop => ⟨_, _, decode_of_opcode_addi w hop, rdField_toNat w, imm8Field_toNat w⟩,
    fun s rd n => ?_⟩
  have hsum : (readReg rd s + imm8Value n).toNat = ((readReg rd s).toNat + n.toNat) % 65536 := by
    rw [BitVec.toNat_add, imm8Value_toNat]
  rw [exec_addi, ← hsum]
  exact writesOnly_setAndAdvance rd (readReg rd s + imm8Value n) s

/-- Settles O32: Rd is the minuend. -/
theorem subtractImmediateIsTheDifference : Obligations.SubtractImmediateIsTheDifference := by
  refine ⟨fun w hop => ⟨_, _, decode_of_opcode_subi w hop, rdField_toNat w, imm8Field_toNat w⟩,
    fun s rd n => ?_⟩
  rw [exec_subi, ← imm8Value_toNat, ← toNat_sub_word]
  exact writesOnly_setAndAdvance rd (readReg rd s - imm8Value n) s

end Sys2Proof.Machine
end

section
/-! The flags of a comparison and the jumps on them (R26, R161, R163, R164). -/

namespace Sys2Proof.Machine

/-- Settles O33: each flag is read at its own position, and a further position is none of the three. -/
theorem statusWordHoldsItsFlags : Obligations.StatusWordHoldsItsFlags := by
  intro p z s o hp
  have hbit := getLsbD_mkFlags p z s o hp
  obtain ⟨-, hzs, hzo, hso⟩ := hp
  refine ⟨?_, ?_, ?_, fun k hz hs ho => ?_⟩
  · rw [zeroFlag, hbit, if_pos rfl]
  · rw [signFlag, hbit, if_neg hzs.symm, if_pos rfl]
  · rw [overflowFlag, hbit, if_neg hzo.symm, if_neg hso.symm, if_pos rfl]
  · rw [hbit, if_neg hz, if_neg hs, if_neg ho]

/-! ### The flags as facts about signed numbers -/

/-- R10, D2: two's complement. -/
theorem toInt_word (v : Word) :
    v.toInt = if v.toNat < 32768 then (v.toNat : Int) else (v.toNat : Int) - 65536 := by
  rw [BitVec.toInt_eq_toNat_cond]
  have : 2 * v.toNat < 2 ^ 16 ↔ v.toNat < 32768 := by omega
  simp only [this]
  rfl

theorem compareZero_iff (a b : Word) : compareZero a b = true ↔ a = b := by
  rw [compareZero, beq_iff_eq]
  exact sub_eq_zero

theorem compareOverflow_iff (a b : Word) :
    compareOverflow a b = true ↔ a.toInt - b.toInt < -32768 ∨ 32767 < a.toInt - b.toInt := by
  have ha := a.isLt
  have hb := b.isLt
  rw [compareOverflow_eq_decide, toNat_sub_word, toInt_word, toInt_word]
  simp only [Bool.and_eq_true, bne_iff_ne, ne_eq, decide_eq_decide]
  split_ifs <;> omega

/-- R161: bit 15 of the difference is the sign of the signed difference, but where that overflows. -/
theorem compareSign_ne_compareOverflow_iff (a b : Word) :
    compareSign a b ≠ compareOverflow a b ↔ a.toInt < b.toInt := by
  have ha := a.isLt
  have hb := b.isLt
  rw [compareSign_eq_decide, ne_eq, Bool.eq_iff_iff, decide_eq_true_eq, compareOverflow_iff,
    toNat_sub_word, toInt_word, toInt_word]
  split_ifs <;> omega

theorem compareSign_iff (a b : Word) :
    compareSign a b = true ↔ 32768 ≤ (a.toInt - b.toInt) % 65536 := by
  have ha := a.isLt
  have hb := b.isLt
  rw [compareSign_eq_decide, decide_eq_true_eq, toNat_sub_word, toInt_word, toInt_word]
  split_ifs <;> omega

/-- Settles O35: each flag's meaning over the operands' signed values. -/
theorem comparisonFlagsMeanSignedOrder : Obligations.ComparisonFlagsMeanSignedOrder := fun a b =>
  ⟨compareZero_iff a b, compareOverflow_iff a b, compareSign_ne_compareOverflow_iff a b⟩

/-! ### Jumps -/

theorem taken_eq (c : Cond) (s : State) :
    taken c s = condHolds c (flagZ s) (flagS s) (flagO s) := rfl

/-- Everything a jump does, on whatever its condition means. -/
theorem jumpsIf_jumpOn (c : Cond) (rd : Reg) (s : State) (b : Prop) (h : taken c s = true ↔ b) :
    ∃ t, jumpOn c rd s = .next t ∧ jumpsIf b rd s t := by
  refine ⟨_, jumpOn_eq c rd s, fun hb => ?_, fun hb => ?_, fun r => readReg_setPc r _ s,
    fun a => cell_setPc a _ s, ⟨rfl, rfl, rfl, rfl⟩⟩
  · rw [setPc_pc, if_pos (h.2 hb)]
  · rw [if_neg (mt h.1 hb)]
    exact pcPlusOne_advancePc s

/-- Settles O37: a row of Table 5 is what `condHolds` computes from the flags in F. -/
theorem conditionalJumpsFollowTheTable : Obligations.ConditionalJumpsFollowTheTable := by
  intro s rd
  refine ⟨jumpsIf_jumpOn .equal rd s _ ?_, jumpsIf_jumpOn .notEqual rd s _ ?_,
    jumpsIf_jumpOn .greater rd s _ ?_, jumpsIf_jumpOn .greaterEqual rd s _ ?_,
    jumpsIf_jumpOn .less rd s _ ?_, jumpsIf_jumpOn .lessEqual rd s _ ?_,
    jumpsIf_jumpOn .signed rd s _ ?_, jumpsIf_jumpOn .notSigned rd s _ ?_⟩
  all_goals simp [taken_eq, condHolds]

/-- Settles O38: the codes 1 to 8 select the conditions of JE to JNS. -/
theorem aliasesAreJumpsWithTheirCode : Obligations.AliasesAreJumpsWithTheirCode := by
  intro rd x hx
  simp only [List.mem_cons, List.not_mem_nil, or_false] at hx
  rcases hx with rfl | rfl | rfl | rfl | rfl | rfl | rfl | rfl <;> exact ⟨rfl, fun s => rfl⟩

/-- R87: the code selects among JE to JNS. -/
theorem decode_of_opcode_jmp_code (w : Word) (n : Nat) (hop : opcodeIs w 0b01100)
    (hcode : w.toNat % 256 = n) :
    ∃ cc : BitVec 8, cc.toNat = n ∧ decode w = .ok (decodeJump (rdField w) cc) :=
  ⟨imm8Field w, (imm8Field_toNat w).trans hcode, decode_of_opcode_jmp w hop⟩

/-- Settles O36: `decodeJump` goes by the code, whose condition 0 always holds and whose codes above 8
have none. -/
theorem jumpIsUnconditionalOrReserved : Obligations.JumpIsUnconditionalOrReserved := by
  refine ⟨fun w hop => ⟨rdField w, rdField_toNat w, ?_, ?_, ?_, ?_, ?_, ?_, ?_, ?_, fun hcode => ?_⟩,
    fun s rd => jumpsIf_jumpOn .always rd s True (iff_of_true rfl trivial),
    fun s rd cc hcc => ⟨_, type2_toNat 0b01100 rd cc, exec_jmp_reserved rd cc s hcc⟩⟩
  case refine_9 =>
    obtain ⟨cc, hcc, hdecode⟩ := decode_of_opcode_jmp_code w _ hop rfl
    have hwf : (Instr.jmp (rdField w) cc).wellFormed = true := by
      simpa only [Instr.wellFormed, Bool.or_eq_true, decide_eq_true_eq, hcc] using hcode
    exact ⟨cc, hcc, hdecode.trans (congrArg _ (decodeJump_of_wellFormed _ cc hwf))⟩
  all_goals
    intro hcode
    obtain ⟨cc, hcc, hdecode⟩ := decode_of_opcode_jmp_code w _ hop hcode
    simp only [hdecode, decodeJump, hcc]

/-! ### A comparison and the jump after it -/

/-- What a condition is named for, of two signed numbers (R164). -/
def comparisonNamed (c : Cond) (a b : Int) : Prop :=
  match c with
  | .always => True
  | .equal => a = b
  | .notEqual => a ≠ b
  | .greater => a > b
  | .greaterEqual => a ≥ b
  | .less => a < b
  | .lessEqual => a ≤ b
  | .signed => 32768 ≤ (a - b) % 65536
  | .notSigned => (a - b) % 65536 < 32768

/-- A row of Table 5 on a comparison's flags is the comparison it is named for. -/
theorem condHolds_compare_iff (c : Cond) (x y : Word) :
    condHolds c (compareZero x y) (compareSign x y) (compareOverflow x y) = true ↔
      comparisonNamed c x.toInt y.toInt := by
  have hz : compareZero x y = true ↔ x.toInt = y.toInt :=
    (compareZero_iff x y).trans BitVec.toInt_inj.symm
  have hlt := compareSign_ne_compareOverflow_iff x y
  have hge : compareSign x y = compareOverflow x y ↔ ¬ x.toInt < y.toInt := by
    rw [← hlt, not_not]
  have hs := compareSign_iff x y
  cases c <;>
    simp only [condHolds, comparisonNamed, Bool.and_eq_true, Bool.or_eq_true, Bool.not_eq_true',
      ← Bool.not_eq_true, beq_iff_eq, bne_iff_ne, hz, hlt, hge, hs] <;>
    omega

/-- After `CMP F, Ra, Rb` the flags in F are the comparison's, in every layout (R26, R162). -/
theorem taken_after_compare_iff (c : Cond) (x y : Word) (s : State) (hp : s.params.wf) :
    taken c (advancePc (writeReg .f (compareFlags s.params x y) s)) = true ↔
      comparisonNamed c x.toInt y.toInt := by
  obtain ⟨hz, hs, ho, -⟩ := statusWordHoldsItsFlags s.params (compareZero x y) (compareSign x y)
    (compareOverflow x y) hp
  rw [taken, readReg_advancePc, readReg_writeReg_same, advancePc_params, writeReg_params,
    compareFlags, hz, hs, ho, condHolds_compare_iff]

/-- Settles O39. -/
theorem compareThenJumpDecidesSignedOrder : Obligations.CompareThenJumpDecidesSignedOrder := by
  rintro s ra rb rd _ _ hp rfl rfl
  have htaken := fun c => taken_after_compare_iff c (readReg ra s) (readReg rb s) s hp
  exact ⟨_, rfl, jumpsIf_jumpOn .equal rd _ _ (htaken .equal),
    jumpsIf_jumpOn .notEqual rd _ _ (htaken .notEqual),
    jumpsIf_jumpOn .greater rd _ _ (htaken .greater),
    jumpsIf_jumpOn .greaterEqual rd _ _ (htaken .greaterEqual),
    jumpsIf_jumpOn .less rd _ _ (htaken .less),
    jumpsIf_jumpOn .lessEqual rd _ _ (htaken .lessEqual),
    jumpsIf_jumpOn .signed rd _ _ (htaken .signed),
    jumpsIf_jumpOn .notSigned rd _ _ (htaken .notSigned)⟩

end Sys2Proof.Machine
end
